-- ==== Sys2Proof/Word.lean ====
section
/-! DEFINITION. The word types of CHIP_OS CORE (spec 00_scope.md R5: every value is unsigned). -/

namespace Sys2Proof

/-- A general register, an immediate `nn`, a timer, one memory byte: 8 bits. -/
abbrev Byte := BitVec 8

/-- An opcode, `pc`, `I`, a stack entry: 16 bits. -/
abbrev Word := BitVec 16

/-- A register selector `x` or `y`, or the nibble `n`: 4 bits. -/
abbrev Nibble := BitVec 4

/-- The field `nnn`: 12 bits. -/
abbrev Addr12 := BitVec 12

end Sys2Proof
end

