-- ==== Sys2Proof/Syntax.lean ====
section
/-! DEFINITION. The instructions of CHIP-8/CHIP_OS: one constructor per row of spec/opcode_table.json
(spec 30_encoding.md R50). -/

namespace Sys2Proof

/-- One instruction with its operand fields (R46). -/
inductive Instr where
  /-- `00E0` CLS (R60). -/
  | cls
  /-- `00EE` RET (R61). -/
  | ret
  /-- `1nnn` JP nnn (R62). -/
  | jp (nnn : Addr12)
  /-- `2nnn` CALL nnn (R63). -/
  | call (nnn : Addr12)
  /-- `3xnn` SE Vx, nn (R65). -/
  | seImm (x : Nibble) (nn : Byte)
  /-- `4xnn` SNE Vx, nn (R66). -/
  | sneImm (x : Nibble) (nn : Byte)
  /-- `5xy0` SE Vx, Vy (R67). -/
  | seReg (x y : Nibble)
  /-- `6xnn` LD Vx, nn (R69). -/
  | ldImm (x : Nibble) (nn : Byte)
  /-- `7xnn` ADD Vx, nn (R70). -/
  | addImm (x : Nibble) (nn : Byte)
  /-- `8xy0` LD Vx, Vy (R73). -/
  | ldReg (x y : Nibble)
  /-- `8xy1` OR Vx, Vy (R74). -/
  | orReg (x y : Nibble)
  /-- `8xy2` AND Vx, Vy (R75). -/
  | andReg (x y : Nibble)
  /-- `8xy3` XOR Vx, Vy (R76). -/
  | xorReg (x y : Nibble)
  /-- `8xy4` ADD Vx, Vy (R77). -/
  | addReg (x y : Nibble)
  /-- `8xy5` SUB Vx, Vy (R78). -/
  | subReg (x y : Nibble)
  /-- `8xy6` SHR Vx (R79); the field `y` is part of the word and ignored. -/
  | shr (x y : Nibble)
  /-- `8xy7` SUBN Vx, Vy (R80). -/
  | subn (x y : Nibble)
  /-- `8xyE` SHL Vx (R81); the field `y` is part of the word and ignored. -/
  | shl (x y : Nibble)
  /-- `9xy0` SNE Vx, Vy (R68). -/
  | sneReg (x y : Nibble)
  /-- `Annn` LD I, nnn (R71). -/
  | ldI (nnn : Addr12)
  /-- `Bnnn` JP V0, nnn (R64). -/
  | jpV0 (nnn : Addr12)
  /-- `Cxnn` RND Vx, nn (R72). -/
  | rnd (x : Nibble) (nn : Byte)
  /-- `Dxyn` DRW Vx, Vy, n (R83). -/
  | drw (x y n : Nibble)
  /-- `Ex9E` SKP Vx (R85). -/
  | skp (x : Nibble)
  /-- `ExA1` SKNP Vx (R86). -/
  | sknp (x : Nibble)
  /-- `Fx07` LD Vx, DT, x not 0 (R88). -/
  | ldVxDt (x : Nibble)
  /-- `Fx0A` LD Vx, K, x not 0 (R89). -/
  | ldVxK (x : Nibble)
  /-- `Fx15` LD DT, Vx, x not 0 (R90). -/
  | ldDtVx (x : Nibble)
  /-- `Fx18` LD ST, Vx, x not 0 (R91). -/
  | ldStVx (x : Nibble)
  /-- `Fx1E` ADD I, Vx, x not 0 (R92). -/
  | addI (x : Nibble)
  /-- `Fx29` LD F, Vx, x not 0 (R93). -/
  | ldF (x : Nibble)
  /-- `Fx33` LD B, Vx, x not 0 (R94). -/
  | ldB (x : Nibble)
  /-- `Fx55` LD [I], Vx, x not 0 (R95). -/
  | storeRegs (x : Nibble)
  /-- `Fx65` LD Vx, [I], x not 0 (R96). -/
  | loadRegs (x : Nibble)
  /-- `F000` KSYS 0x00, KRESET (R99, R104). -/
  | kreset
  /-- `F004` KSYS 0x04, KIORESET (R100, R104). -/
  | kioreset
  /-- `F006` KSYS 0x06, KSHELL (R101, R104). -/
  | kshell
  /-- `F008` KSYS 0x08, KLOAD (R102, R104). -/
  | kload
  /-- `F0nn` KSYS nn, any other id (R103, R104). -/
  | ksys (nn : Byte)
  /-- Any word no other row matches (R51, R52); it carries the word, which its diagnostic names. -/
  | unknown (op : Word)
  deriving DecidableEq, Repr

end Sys2Proof
end

