-- ==== Sys2Proof/WellFormed.lean ====
section
/-! DEFINITION. The rows of the opcode table by match and mask (spec 30_encoding.md R58), and which
instruction terms stand for a word of the table. -/

namespace Sys2Proof

/-- The constraint a row carries beside its mask (R58). -/
inductive RowConstraint where
  /-- No constraint. -/
  | any
  /-- `x != 0`: the nine user instructions of family F (R57, R97). -/
  | xNonzero
  /-- `nn` is none of 00, 04, 06, 08: the generic row `KSYS nn` (R103). -/
  | idUndefined
  deriving DecidableEq, Repr

/-- One row: a word `op` selects it when `op & mask = value` and the constraint holds (R58). -/
structure Row where
  mask : Word
  value : Word
  constraint : RowConstraint
  deriving DecidableEq, Repr

/-- The syscall ids with a meaning of their own (spec 48_kernel_syscalls.md, R99 to R102). -/
def definedSyscallIds : List Byte := [0x00, 0x04, 0x06, 0x08]

/-- The constraint of a row, read off a word. -/
def RowConstraint.holds (c : RowConstraint) (op : Word) : Bool :=
  match c with
  | .any => true
  | .xNonzero => op.extractLsb' 8 4 != 0
  | .idUndefined => !definedSyscallIds.contains (op.extractLsb' 0 8)

/-- The word selects the row (R58). -/
def Row.selects (r : Row) (op : Word) : Bool :=
  op &&& r.mask == r.value && r.constraint.holds op

/-- Families 0 to 7 (R50). -/
def rowsLow : List Row :=
  [ ⟨0xFFFF, 0x00E0, .any⟩, ⟨0xFFFF, 0x00EE, .any⟩, ⟨0xF000, 0x1000, .any⟩, ⟨0xF000, 0x2000, .any⟩,
    ⟨0xF000, 0x3000, .any⟩, ⟨0xF000, 0x4000, .any⟩, ⟨0xF00F, 0x5000, .any⟩, ⟨0xF000, 0x6000, .any⟩,
    ⟨0xF000, 0x7000, .any⟩ ]

/-- Family 8 (R50). -/
def rowsAlu : List Row :=
  [ ⟨0xF00F, 0x8000, .any⟩, ⟨0xF00F, 0x8001, .any⟩, ⟨0xF00F, 0x8002, .any⟩, ⟨0xF00F, 0x8003, .any⟩,
    ⟨0xF00F, 0x8004, .any⟩, ⟨0xF00F, 0x8005, .any⟩, ⟨0xF00F, 0x8006, .any⟩, ⟨0xF00F, 0x8007, .any⟩,
    ⟨0xF00F, 0x800E, .any⟩ ]

/-- Families 9 to E (R50). -/
def rowsHigh : List Row :=
  [ ⟨0xF00F, 0x9000, .any⟩, ⟨0xF000, 0xA000, .any⟩, ⟨0xF000, 0xB000, .any⟩, ⟨0xF000, 0xC000, .any⟩,
    ⟨0xF000, 0xD000, .any⟩, ⟨0xF0FF, 0xE09E, .any⟩, ⟨0xF0FF, 0xE0A1, .any⟩ ]

/-- Family F (R50): the nine user rows carry `x != 0`, the generic syscall row its own constraint. -/
def rowsF : List Row :=
  [ ⟨0xF0FF, 0xF007, .xNonzero⟩, ⟨0xF0FF, 0xF00A, .xNonzero⟩, ⟨0xF0FF, 0xF015, .xNonzero⟩,
    ⟨0xF0FF, 0xF018, .xNonzero⟩, ⟨0xF0FF, 0xF01E, .xNonzero⟩, ⟨0xF0FF, 0xF029, .xNonzero⟩,
    ⟨0xF0FF, 0xF033, .xNonzero⟩, ⟨0xF0FF, 0xF055, .xNonzero⟩, ⟨0xF0FF, 0xF065, .xNonzero⟩,
    ⟨0xFFFF, 0xF000, .any⟩, ⟨0xFFFF, 0xF004, .any⟩, ⟨0xFFFF, 0xF006, .any⟩, ⟨0xFFFF, 0xF008, .any⟩,
    ⟨0xFF00, 0xF000, .idUndefined⟩ ]

/-- Every row of the table but UNKNOWN, in the table's families (R50). -/
def opcodeRows : List Row := rowsLow ++ rowsAlu ++ rowsHigh ++ rowsF

/-- Some row other than UNKNOWN is selected by the word; otherwise the word is an unknown opcode (R51, R52). -/
def isKnown (op : Word) : Bool := opcodeRows.any fun r => r.selects op

/-- The term stands for a word of its row: `x != 0` for the nine user instructions of family F (R57),
an undefined id for `KSYS nn` (R103), and for UNKNOWN a word that no other row matches (R51). -/
def Instr.wellFormed (i : Instr) : Bool :=
  match i with
  | .cls | .ret | .jp _ | .call _ | .seImm _ _ | .sneImm _ _ | .seReg _ _ | .ldImm _ _ | .addImm _ _
  | .ldReg _ _ | .orReg _ _ | .andReg _ _ | .xorReg _ _ | .addReg _ _ | .subReg _ _ | .shr _ _
  | .subn _ _ | .shl _ _ | .sneReg _ _ | .ldI _ | .jpV0 _ | .rnd _ _ | .drw _ _ _ | .skp _ | .sknp _
  | .kreset | .kioreset | .kshell | .kload => true
  | .ldVxDt x | .ldVxK x | .ldDtVx x | .ldStVx x | .addI x | .ldF x | .ldB x | .storeRegs x
  | .loadRegs x => x != 0
  | .ksys nn => !definedSyscallIds.contains nn
  | .unknown op => !isKnown op

end Sys2Proof
end

