-- ==== Sys2Proof/Decode.lean ====
section
/-! DEFINITION. The decoder, total on any bytes, and the encoder (spec 30_encoding.md R45 to R52, R57). -/

namespace Sys2Proof

/-- Why a list of bytes holds no instruction. -/
inductive DecodeError where
  /-- Fewer than the two bytes every instruction has (R45); it carries how many there are. -/
  | truncated (have_ : Nat)
  deriving DecidableEq, Repr

/-- `op[15:12]`, the family (R46). -/
def fieldFamily (op : Word) : Nibble := op.extractLsb' 12 4

/-- `op[11:8]`, the primary register selector (R46). -/
def fieldX (op : Word) : Nibble := op.extractLsb' 8 4

/-- `op[7:4]`, the secondary register selector (R46). -/
def fieldY (op : Word) : Nibble := op.extractLsb' 4 4

/-- `op[3:0]` (R46). -/
def fieldN (op : Word) : Nibble := op.extractLsb' 0 4

/-- `op[7:0]`, the immediate byte (R46). -/
def fieldNN (op : Word) : Byte := op.extractLsb' 0 8

/-- `op[11:0]`, the address (R46). -/
def fieldNNN (op : Word) : Addr12 := op.extractLsb' 0 12

/-- The byte at the lower address, the high byte of the word (R32, R45). -/
def highByte (op : Word) : Byte := op.extractLsb' 8 8

/-- The byte at the higher address, the low byte of the word (R32, R45). -/
def lowByte (op : Word) : Byte := op.extractLsb' 0 8

/-- The word two bytes form, high byte first (R32). -/
def joinBytes (hi lo : Byte) : Word := hi ++ lo

/-- Family 0: the whole word selects (R50). -/
def decodeFamily0 (op : Word) : Instr :=
  if op = 0x00E0 then .cls else if op = 0x00EE then .ret else .unknown op

/-- Family 5: only the low nibble 0 (R50, R52, D27). -/
def decodeFamily5 (op : Word) : Instr :=
  if fieldN op = 0 then .seReg (fieldX op) (fieldY op) else .unknown op

/-- Family 8: the low nibble selects the operation (R50). -/
def decodeFamily8 (op : Word) : Instr :=
  if fieldN op = 0x0 then .ldReg (fieldX op) (fieldY op)
  else if fieldN op = 0x1 then .orReg (fieldX op) (fieldY op)
  else if fieldN op = 0x2 then .andReg (fieldX op) (fieldY op)
  else if fieldN op = 0x3 then .xorReg (fieldX op) (fieldY op)
  else if fieldN op = 0x4 then .addReg (fieldX op) (fieldY op)
  else if fieldN op = 0x5 then .subReg (fieldX op) (fieldY op)
  else if fieldN op = 0x6 then .shr (fieldX op) (fieldY op)
  else if fieldN op = 0x7 then .subn (fieldX op) (fieldY op)
  else if fieldN op = 0xE then .shl (fieldX op) (fieldY op)
  else .unknown op

/-- Family 9: only the low nibble 0 (R50, R52, D27). -/
def decodeFamily9 (op : Word) : Instr :=
  if fieldN op = 0 then .sneReg (fieldX op) (fieldY op) else .unknown op

/-- Family E: closed, it never falls through into family F (R50, R53). -/
def decodeFamilyE (op : Word) : Instr :=
  if fieldNN op = 0x9E then .skp (fieldX op)
  else if fieldNN op = 0xA1 then .sknp (fieldX op)
  else .unknown op

/-- Family F with `x != 0`: the nine user instructions (R50, R97). -/
def decodeUserF (op : Word) : Instr :=
  if fieldNN op = 0x07 then .ldVxDt (fieldX op)
  else if fieldNN op = 0x0A then .ldVxK (fieldX op)
  else if fieldNN op = 0x15 then .ldDtVx (fieldX op)
  else if fieldNN op = 0x18 then .ldStVx (fieldX op)
  else if fieldNN op = 0x1E then .addI (fieldX op)
  else if fieldNN op = 0x29 then .ldF (fieldX op)
  else if fieldNN op = 0x33 then .ldB (fieldX op)
  else if fieldNN op = 0x55 then .storeRegs (fieldX op)
  else if fieldNN op = 0x65 then .loadRegs (fieldX op)
  else .unknown op

/-- Family F with `x = 0`: always a syscall word (R57, R98). -/
def decodeSyscall (op : Word) : Instr :=
  if fieldNN op = 0x00 then .kreset
  else if fieldNN op = 0x04 then .kioreset
  else if fieldNN op = 0x06 then .kshell
  else if fieldNN op = 0x08 then .kload
  else .ksys (fieldNN op)

/-- Family F: the register selector is looked at first (R98). -/
def decodeFamilyF (op : Word) : Instr :=
  if fieldX op = 0 then decodeSyscall op else decodeUserF op

/-- The instruction of a word: the family first, then the family's own selector (R50). -/
def decodeWord (op : Word) : Instr :=
  if fieldFamily op = 0x0 then decodeFamily0 op
  else if fieldFamily op = 0x1 then .jp (fieldNNN op)
  else if fieldFamily op = 0x2 then .call (fieldNNN op)
  else if fieldFamily op = 0x3 then .seImm (fieldX op) (fieldNN op)
  else if fieldFamily op = 0x4 then .sneImm (fieldX op) (fieldNN op)
  else if fieldFamily op = 0x5 then decodeFamily5 op
  else if fieldFamily op = 0x6 then .ldImm (fieldX op) (fieldNN op)
  else if fieldFamily op = 0x7 then .addImm (fieldX op) (fieldNN op)
  else if fieldFamily op = 0x8 then decodeFamily8 op
  else if fieldFamily op = 0x9 then decodeFamily9 op
  else if fieldFamily op = 0xA then .ldI (fieldNNN op)
  else if fieldFamily op = 0xB then .jpV0 (fieldNNN op)
  else if fieldFamily op = 0xC then .rnd (fieldX op) (fieldNN op)
  else if fieldFamily op = 0xD then .drw (fieldX op) (fieldY op) (fieldN op)
  else if fieldFamily op = 0xE then decodeFamilyE op
  else decodeFamilyF op

/-- Two bytes are one instruction, high byte first (R45); what follows them is left over. -/
def decode (bytes : List Byte) : Except DecodeError (Instr × List Byte) :=
  match bytes with
  | hi :: lo :: rest => .ok (decodeWord (joinBytes hi lo), rest)
  | [] => .error (.truncated 0)
  | [_] => .error (.truncated 1)

/-- The word of an instruction, by the formats of R47 and the patterns of R50. -/
def encode (i : Instr) : Word :=
  match i with
  | .cls => 0x00E0#16
  | .ret => 0x00EE#16
  | .jp nnn => 0x1#4 ++ nnn
  | .call nnn => 0x2#4 ++ nnn
  | .seImm x nn => 0x3#4 ++ x ++ nn
  | .sneImm x nn => 0x4#4 ++ x ++ nn
  | .seReg x y => 0x5#4 ++ x ++ y ++ 0x0#4
  | .ldImm x nn => 0x6#4 ++ x ++ nn
  | .addImm x nn => 0x7#4 ++ x ++ nn
  | .ldReg x y => 0x8#4 ++ x ++ y ++ 0x0#4
  | .orReg x y => 0x8#4 ++ x ++ y ++ 0x1#4
  | .andReg x y => 0x8#4 ++ x ++ y ++ 0x2#4
  | .xorReg x y => 0x8#4 ++ x ++ y ++ 0x3#4
  | .addReg x y => 0x8#4 ++ x ++ y ++ 0x4#4
  | .subReg x y => 0x8#4 ++ x ++ y ++ 0x5#4
  | .shr x y => 0x8#4 ++ x ++ y ++ 0x6#4
  | .subn x y => 0x8#4 ++ x ++ y ++ 0x7#4
  | .shl x y => 0x8#4 ++ x ++ y ++ 0xE#4
  | .sneReg x y => 0x9#4 ++ x ++ y ++ 0x0#4
  | .ldI nnn => 0xA#4 ++ nnn
  | .jpV0 nnn => 0xB#4 ++ nnn
  | .rnd x nn => 0xC#4 ++ x ++ nn
  | .drw x y n => 0xD#4 ++ x ++ y ++ n
  | .skp x => 0xE#4 ++ x ++ 0x9E#8
  | .sknp x => 0xE#4 ++ x ++ 0xA1#8
  | .ldVxDt x => 0xF#4 ++ x ++ 0x07#8
  | .ldVxK x => 0xF#4 ++ x ++ 0x0A#8
  | .ldDtVx x => 0xF#4 ++ x ++ 0x15#8
  | .ldStVx x => 0xF#4 ++ x ++ 0x18#8
  | .addI x => 0xF#4 ++ x ++ 0x1E#8
  | .ldF x => 0xF#4 ++ x ++ 0x29#8
  | .ldB x => 0xF#4 ++ x ++ 0x33#8
  | .storeRegs x => 0xF#4 ++ x ++ 0x55#8
  | .loadRegs x => 0xF#4 ++ x ++ 0x65#8
  | .kreset => 0xF000#16
  | .kioreset => 0xF004#16
  | .kshell => 0xF006#16
  | .kload => 0xF008#16
  | .ksys nn => 0xF0#8 ++ nn
  | .unknown op => op

/-- The two bytes of an instruction in memory order (R45). -/
def encodeBytes (i : Instr) : List Byte := [highByte (encode i), lowByte (encode i)]

/-- The instruction the decoder reads from a word given as the opcode table numbers its bits: bit 0 is
the least significant bit of the 16-bit word, and bits at and above `nbits` are 0. -/
def decodeTableWord (nbits w : Nat) : Option Instr :=
  match decode [highByte (BitVec.ofNat 16 (w % 2 ^ nbits)), lowByte (BitVec.ofNat 16 (w % 2 ^ nbits))] with
  | .ok (i, _) => some i
  | .error _ => none

end Sys2Proof
end

