-- ==== Sys2Proof/Config.lean ====
section
/-! DEFINITION. What the specification leaves to the implementation: the free values and the types of
the OPEN parameters (spec 00_scope.md R4, 92_eei_decisions.md). -/

namespace Sys2Proof

/-- The random byte of the k-th executed `Cxnn` (spec 43_immediate.md R72, 93 U2): a free value, nothing
constrains it. `State.draws` counts the draws. Log 4. -/
opaque Config.randomByte : Nat → Byte

/-- A populated slot of the virtual disk (spec 10_state.md R26): a name and the bytes. -/
structure DiskEntry where
  name : String
  bytes : List Byte
  deriving DecidableEq, Repr

/-- The OPEN parameters, fixed for a whole run (spec 00_scope.md R4): plain data carried by the state,
so that a statement over all states is one over all parameters. -/
structure Params where
  /-- `BOOT_IMAGE`: the bytes placed at 0x1000 at reset (spec 10_state.md R24). -/
  bootImage : List Byte
  /-- `FONT_TABLE`: 16 glyphs of 5 bytes (spec 10_state.md R24). -/
  fontTable : Vector Byte 80
  /-- The virtual disk: four slots, each absent or populated (spec 10_state.md R26). -/
  disk : Vector (Option DiskEntry) 4
  /-- `KEY_PICK`: the keys `Fx0A` takes first when several are down, in order; the others follow from 0
  upward (spec 47_fx_user.md R89, D20). -/
  keyFirst : List Nibble
  deriving DecidableEq, Repr

end Sys2Proof
end

