-- ==== Sys2Proof/Machine/Params.lean ====
section
/-! DEFINITION. The numbers of the hardware and the default values of its OPEN parameters
(spec 00_scope.md R4, 10_state.md R24). -/

namespace Sys2Proof.Machine

/-- `MEM_SIZE`: addresses 0x0000 to 0x13FF exist (R4, R23). -/
def memSize : Nat := 0x1400

/-- `USER_BASE`: where programs are loaded and user execution begins (R4, R31). -/
def userBase : Nat := 0x200

/-- `KERNEL_BASE`: the first address of the kernel region (R4, R31). -/
def kernelBase : Nat := 0x1000

/-- `KERNEL_END`: the last address of the kernel region (R4, R31). -/
def kernelEnd : Nat := 0x13FF

/-- `FONT_BASE`: where the glyphs are loaded (R4). -/
def fontBase : Nat := 0x050

/-- `LOAD_LIMIT`: 0x1400 - 0x200 = 4,608 bytes (R4, R143). -/
def loadLimit : Nat := memSize - userBase

/-- `DISK_CAPACITY`: what the host can offer in one entry (R4, D22); no rule of the block tests it. Log 18. -/
def diskCapacity : Nat := 4096

/-- The default `BOOT_IMAGE`: `F000 F004 F006 1200` (R24, D2). Log 1. -/
def defaultBootImage : List Byte := [0xF0, 0x00, 0xF0, 0x04, 0xF0, 0x06, 0x12, 0x00]

/-- Glyphs 0 to 7 of the default `FONT_TABLE` (R24, D3). Log 2. -/
def fontLow : List Byte :=
  [0xF0, 0x90, 0x90, 0x90, 0xF0,  0x20, 0x60, 0x20, 0x20, 0x70,
   0xF0, 0x10, 0xF0, 0x80, 0xF0,  0xF0, 0x10, 0xF0, 0x10, 0xF0,
   0x90, 0x90, 0xF0, 0x10, 0x10,  0xF0, 0x80, 0xF0, 0x10, 0xF0,
   0xF0, 0x80, 0xF0, 0x90, 0xF0,  0xF0, 0x10, 0x20, 0x40, 0x40]

/-- Glyphs 8 to F of the default `FONT_TABLE` (R24, D3). Log 2. -/
def fontHigh : List Byte :=
  [0xF0, 0x90, 0xF0, 0x90, 0xF0,  0xF0, 0x90, 0xF0, 0x10, 0xF0,
   0xF0, 0x90, 0xF0, 0x90, 0x90,  0xE0, 0x90, 0xE0, 0x90, 0xE0,
   0xF0, 0x80, 0x80, 0x80, 0xF0,  0xE0, 0x90, 0x90, 0x90, 0xE0,
   0xF0, 0x80, 0xF0, 0x80, 0xF0,  0xF0, 0x80, 0xF0, 0x80, 0x80]

/-- The default parameters; the disk the host has populated is given as nothing. With
no key preferred `KEY_PICK` is the lowest index. Logs 1, 2, 3, 5. -/
def defaultParams : Params :=
  { bootImage := defaultBootImage
    fontTable := ⟨(fontLow ++ fontHigh).toArray, rfl⟩
    disk := Vector.replicate 4 none
    keyFirst := [] }

end Sys2Proof.Machine
end

