-- ==== Sys2Proof/Machine/State.lean ====
section
/-! DEFINITION. The state of CHIP_OS CORE as plain data (spec 10_state.md), the host events of
spec 00_scope.md R7, the outputs of R8, and the state right after reset (R25, R140). -/

namespace Sys2Proof.Machine

/-- The privilege mode (R16). -/
inductive Mode where
  | kernel
  | user
  deriving DecidableEq, Repr

/-- The lifecycle phase (R17). -/
inductive Phase where
  /-- Before the first `Reset`: nothing is defined, every event but `Reset` is refused. -/
  | uninitialized
  | kernelBoot
  | userRunning
  /-- Terminal: no further cycles execute. -/
  | halted
  deriving DecidableEq, Repr

/-- The values of `halt_cause` (R18); their numbers are `HaltCause.code`. -/
inductive HaltCause where
  | none
  | stackOverflow
  | stackUnderflow
  | outOfBoundsAccess
  | privilegeViolation
  | keyIndexOutOfRange
  | exitRequest
  deriving DecidableEq, Repr

/-- The fatal faults with the information reported beside them (R110). -/
inductive FatalFault where
  /-- Code 1, no information. -/
  | stackOverflow
  /-- Code 2, no information. -/
  | stackUnderflow
  /-- Code 3, the address. -/
  | outOfBoundsAccess (a : Nat)
  /-- Code 4 by an access to the kernel region in User mode, the address. -/
  | privilegeViolationAt (a : Nat)
  /-- Code 4 by a syscall word in User mode, the word. -/
  | privilegeViolationWord (op : Word)
  /-- Code 5, the value of `V[x]`. -/
  | keyIndexOutOfRange (k : Byte)
  deriving DecidableEq, Repr

/-- The non-fatal conditions reported by a cycle (R8, R125). -/
inductive Diagnostic where
  | unknownOpcode (op : Word) (at_ : Word)
  | diskEntryNotFound (idx : Byte)
  | loadTooLarge (idx : Byte)
  deriving DecidableEq, Repr

/-- The outcome a `Cycle` event reports to the driver (R8). -/
inductive CycleOutcome where
  | ok
  /-- `Fx0A` found no key pressed; the same instruction runs on the next cycle. -/
  | repeat_
  | diag (d : Diagnostic)
  | fault (f : FatalFault)
  | idle
  deriving DecidableEq, Repr

/-- The result of the host operation `Load` (R143). -/
inductive LoadResult where
  | ok
  | notFound
  | tooLarge
  | refused
  deriving DecidableEq, Repr

/-- What `Load` selects an entry by: an index or a name (R143). -/
inductive LoadSelector where
  | index (n : Nat)
  | name (s : String)
  deriving DecidableEq, Repr

/-- The atomic events of R7. -/
inductive HostEvent where
  | reset
  | cycle
  | tick
  | setKeys (k : BitVec 16)
  | load (sel : LoadSelector)
  | haltRequest
  | readFramebuffer
  deriving DecidableEq, Repr

/-- The framebuffer, a 64 x 32 grid of one-bit cells (R22): bit `x` of row `y` is the cell `y*64 + x`.
Log 15. -/
abbrev Framebuffer := Vector (BitVec 64) 32

/-- What an event gives back to the host (R7, R8, R134). -/
inductive Report where
  /-- The event gives back nothing. -/
  | nothing
  | cycle (o : CycleOutcome)
  | load (r : LoadResult)
  /-- The 2,048 cells. -/
  | framebuffer (cells : Framebuffer)
  deriving DecidableEq, Repr

/-- The outputs of the last event: its report, and whether it emitted `ShellInit` (R101). Log 8. -/
structure Output where
  report : Report
  shellInit : Bool
  deriving DecidableEq, Repr

/-- Main memory (R23): the bytes that differ from what an unlisted address reads as, by rising address.
Log 13. -/
abbrev Memory := List Host.Cell

/-- The whole state. The last four fields are the model's own: the parameters of R4, and three fields
that are not state in the spec (logs 4, 8, 9). -/
structure State where
  /-- `V[0]` to `V[15]`; `VF` is `V[15]` (R10, R11). -/
  v : Vector Byte 16
  /-- `I` (R12). -/
  regI : Word
  /-- `pc` (R13). -/
  pc : Word
  /-- `stack[0]` to `stack[15]` (R14). -/
  stack : Vector Word 16
  /-- `sp` (R15). -/
  sp : Byte
  /-- `mode` (R16). -/
  mode : Mode
  /-- `phase` (R17). -/
  phase : Phase
  /-- `halt_cause` (R18). -/
  haltCause : HaltCause
  /-- `DT` (R19). -/
  dt : Byte
  /-- `ST` (R20). -/
  st : Byte
  /-- `keys`: bit `k` is key `k` (R21). -/
  keys : BitVec 16
  /-- `fb` (R22). Log 15. -/
  fb : Framebuffer
  /-- `mem` (R23). -/
  mem : Memory
  /-- The parameters of the hardware, fixed for the run (R4, R24, R26). -/
  params : Params
  /-- How many random bytes have been drawn (the model's own; R72). Log 4. -/
  draws : Nat
  /-- The outputs of the last event (the model's own; R8). Log 8. -/
  output : Output
  /-- The host's events still to come (the model's own; R7). Log 9. -/
  inbox : List HostEvent
  deriving DecidableEq, Repr

/-- Why a step stops. Every fault of the SPEC is a next state in phase `Halted` (R111), not one of these. -/
inductive Fault where
  /-- Raised by CALL and RET when the stack entry they would use does not exist: `sp` is 17 to 255, a
  value the spec says is never taken (R15). Safe: it stops where the spec gives no effect, and no run
  reaches it. Log 7. -/
  | noStackEntry (sp : Byte)
  deriving DecidableEq, Repr

/-- Why a step has no meaning. -/
inductive Refusal where
  /-- Raised by `exec` for an instruction without a meaning yet; none is left. Safe. -/
  | notModelled (mnemonic : String)
  /-- Raised by an event in phase `Uninitialized`, where the spec defines no step and accepts no event
  but `Reset` (R17, R49, D29). Safe. Log 10. -/
  | uninitialized
  deriving DecidableEq, Repr

/-- The outputs before any event has given one. Log 8. -/
def Output.nothing : Output := { report := .nothing, shellInit := false }

/-- The machine right after `Reset` with the default parameters (R25, R140). Memory lists nothing:
every byte reads as its reset content. -/
def State.reset : State :=
  { v := Vector.replicate 16 0
    regI := 0
    pc := 0x1000
    stack := Vector.replicate 16 0
    sp := 0
    mode := .kernel
    phase := .kernelBoot
    haltCause := .none
    dt := 0
    st := 0
    keys := 0
    fb := Vector.replicate 32 0
    mem := []
    params := defaultParams
    draws := 0
    output := Output.nothing
    inbox := [] }

end Sys2Proof.Machine
end

