-- ==== Sys2Proof/Machine/Ops.lean ====
section
/-! DEFINITION. The named operations over memory, registers and the stack, the address check, taking a
fatal fault, completing an instruction, and the boot-exit test (spec 20_memory.md, 60_exceptions.md). -/

namespace Sys2Proof.Machine

/-! ### Memory -/

/-- What an unlisted address reads as: its content after reset with the default `BOOT_IMAGE` (R23, R25).
Log 13. -/
def Memory.unlisted (a : Nat) : Byte :=
  if kernelBase ≤ a then defaultBootImage.getD (a - kernelBase) 0 else 0

/-- The byte at an address, no check (R6 `mem[a]`). -/
def Memory.read : Memory → Nat → Byte
  | [], a => Memory.unlisted a
  | (b, u) :: m, a => if a = b then u else Memory.read m a

/-- Without the entry of an address, which then reads as unlisted. -/
def Memory.erase (m : Memory) (a : Nat) : Memory := m.filter fun c => c.1 != a

/-- With an entry put in its place by rising address. -/
def Memory.insert : Memory → Nat → Byte → Memory
  | [], a, v => [(a, v)]
  | (b, u) :: m, a, v => if a < b then (a, v) :: (b, u) :: m else (b, u) :: Memory.insert m a v

/-- Write one byte, no check, keeping the canonical form (R6 `mem[a] <- v`). -/
def Memory.write (m : Memory) (a : Nat) (v : Byte) : Memory :=
  if v = Memory.unlisted a then m.erase a else (m.erase a).insert a v

/-- Consecutive bytes, ascending (R33). -/
def Memory.readBytes (m : Memory) (a : Nat) : Nat → List Byte
  | 0 => []
  | n + 1 => m.read a :: Memory.readBytes m (a + 1) n

/-- Write consecutive bytes, ascending (R33). -/
def Memory.writeBytes (m : Memory) (a : Nat) : List Byte → Memory
  | [] => m
  | b :: bs => Memory.writeBytes (m.write a b) (a + 1) bs

/-- Zero every byte below the kernel region (R99); those bytes read as zero unlisted. -/
def Memory.clearLow (m : Memory) : Memory := m.filter fun c => decide (kernelBase ≤ c.1)

/-- Memory after `Reset` with a given boot image (R23, R140): the image from 0x1000, at most the kernel
region, and zero in the rest. -/
def Memory.fromImage (image : List Byte) : Memory :=
  Memory.writeBytes [] kernelBase
    (image.take (memSize - kernelBase) ++ List.replicate (defaultBootImage.length - image.length) 0)

/-- The canonical form: rising addresses, and no entry equal to what the address reads as unlisted. -/
def Memory.wf : Memory → Bool
  | [] => true
  | (a, v) :: m => decide (v ≠ Memory.unlisted a) && m.all (fun c => decide (a < c.1)) && Memory.wf m

/-- Every listed address exists (R23, R35). -/
def Memory.inRange (m : Memory) : Bool := m.all fun c => decide (c.1 < memSize)

/-- The byte at an address of the state's memory, no check. -/
def State.readByte (s : State) (a : Nat) : Byte := s.mem.read a

/-! ### Registers -/

/-- Read `V[x]` (R6, R10). -/
def State.readV (s : State) (x : Nibble) : Byte := s.v[x.toNat]'x.isLt

/-- Write `V[x]` (R6, R10); no register is hardwired. -/
def State.writeV (s : State) (x : Nibble) (b : Byte) : State := { s with v := s.v.set x.toNat b x.isLt }

/-- The cell `fb[k]` (R22), as `y*64 + x`. -/
def Framebuffer.cell (fb : Framebuffer) (k : Nat) : Bool :=
  if h : k / 64 < 32 then (fb[k / 64]'h).getLsbD (k % 64) else false

/-! ### Outcomes of an instruction -/

/-- The value of `halt_cause` a fatal fault leaves (R110). -/
def FatalFault.cause (f : FatalFault) : HaltCause :=
  match f with
  | .stackOverflow => .stackOverflow
  | .stackUnderflow => .stackUnderflow
  | .outOfBoundsAccess _ => .outOfBoundsAccess
  | .privilegeViolationAt _ => .privilegeViolation
  | .privilegeViolationWord _ => .privilegeViolation
  | .keyIndexOutOfRange _ => .keyIndexOutOfRange

/-- The numbers of `halt_cause` (R18, R110, D1). -/
def HaltCause.code (c : HaltCause) : BitVec 3 :=
  match c with
  | .none => 0
  | .stackOverflow => 1
  | .stackUnderflow => 2
  | .outOfBoundsAccess => 3
  | .privilegeViolation => 4
  | .keyIndexOutOfRange => 5
  | .exitRequest => 6

/-- The output of a cycle that emits no event (R8). -/
def Output.ofCycle (o : CycleOutcome) : Output := { report := .cycle o, shellInit := false }

/-- TAKING A FATAL FAULT (R111), applied to the state before the cycle: nothing of the cycle is
committed, `phase` becomes `Halted`, `halt_cause` the fault's code, and the fault is reported. Nothing
is saved, no handler exists, `mode` and `pc` keep their values. There is no return from it (R120). Log 6. -/
def State.halt (f : FatalFault) (s : State) : State :=
  { s with phase := .halted, haltCause := f.cause, output := Output.ofCycle (.fault f) }

/-- An instruction that raises a fatal fault ends in the halted state (R6 `raise`, R111). -/
def raise (f : FatalFault) (s : State) : Host.Outcome State Fault Refusal := .next (s.halt f)

/-- The provisional advance and the outcome of the cycle (R13, R49). Log 14. -/
def State.retireWith (o : CycleOutcome) (s : State) : State :=
  { s with pc := s.pc + 2, output := Output.ofCycle o }

/-- The instruction completed, `pc` is the provisional advance (R8, R13). -/
def complete (s : State) : Host.Outcome State Fault Refusal := .next (s.retireWith .ok)

/-- The instruction is a no-op with a diagnostic (R6 `diag`, R51, R125). -/
def completeDiag (d : Diagnostic) (s : State) : Host.Outcome State Fault Refusal :=
  .next (s.retireWith (.diag d))

/-- The instruction completed and overrides the provisional advance (R13, R49). -/
def State.jump (target : Word) (s : State) : State :=
  { s with pc := target, output := Output.ofCycle .ok }

/-- A control transfer to `target` (R13). -/
def completeAt (target : Word) (s : State) : Host.Outcome State Fault Refusal := .next (s.jump target)

/-- A conditional skip: `pc` is advanced by two more when the condition holds (R13, R54). -/
def skipWhen (c : Bool) (s : State) : Host.Outcome State Fault Refusal :=
  if c then completeAt (s.pc + 2 + 2) s else complete s

/-! ### The address check -/

/-- `Check(a)` (R37): bounds in both modes (R35), the kernel region in User mode (R36). -/
def State.check (s : State) (a : Nat) : Option FatalFault :=
  if memSize ≤ a then some (.outOfBoundsAccess a)
  else if s.mode = .user ∧ kernelBase ≤ a then some (.privilegeViolationAt a)
  else none

/-- The check of `n` addresses from `a`, ascending; the first that fails names the fault (R37). -/
def State.checkRun (s : State) (a : Nat) : Nat → Option FatalFault
  | 0 => none
  | n + 1 =>
    match s.check a with
    | some f => some f
    | none => State.checkRun s (a + 1) n

/-- An instruction that accesses `n` bytes from `a`: every address is checked before any effect (R37, D14). -/
def withAccess (s : State) (a n : Nat) (effect : State) : Host.Outcome State Fault Refusal :=
  match s.checkRun a n with
  | some f => raise f s
  | none => complete effect

/-! ### The call stack -/

/-- Push a return address and jump (R63); an entry above the sixteen does not exist (log 7). -/
def State.push (s : State) (ret : Word) (target : Word) : Host.Outcome State Fault Refusal :=
  if h : s.sp.toNat < 16 then
    completeAt target { s with stack := s.stack.set s.sp.toNat ret h, sp := s.sp + 1 }
  else .fault (.noStackEntry s.sp)

/-- Pop the return address into `pc` (R61); the entry keeps its value. Log 7. -/
def State.pop (s : State) : Host.Outcome State Fault Refusal :=
  if h : (s.sp - 1).toNat < 16 then
    completeAt (s.stack[(s.sp - 1).toNat]'h) { s with sp := s.sp - 1 }
  else .fault (.noStackEntry s.sp)

/-! ### Fetch and the boot-exit test -/

/-- The two fetch reads go through the check like data reads, then form the word, high byte first
(R32, R49). -/
def fetch (s : State) : Except FatalFault Word :=
  match s.checkRun s.pc.toNat 2 with
  | some f => .error f
  | none => .ok (joinBytes (s.readByte s.pc.toNat) (s.readByte (s.pc.toNat + 1)))

/-- `pc` lies in the kernel range (R123). -/
def inKernelRange (pc : Word) : Bool := decide (kernelBase ≤ pc.toNat ∧ pc.toNat ≤ kernelEnd)

/-- The boot-exit test at the end of a Kernel-mode cycle that did not fault (R123, D13): the switch
changes `mode`, `phase` and `pc` only. A cycle that faulted is in phase `Halted`. -/
def State.bootExit (s : State) : State :=
  if s.phase ≠ .halted ∧ s.mode = .kernel ∧ inKernelRange s.pc = false then
    { s with mode := .user, phase := .userRunning, pc := 0x200 }
  else s

/-! ### Loading a program -/

/-- The entry of a disk slot; a slot above 3 holds none (R102, R143). -/
def State.diskEntry (s : State) (n : Nat) : Option DiskEntry :=
  if h : n < 4 then s.params.disk[n]'h else none

/-- Copy an image to 0x200 (R102, R143); not passed through the check, nothing else is written. -/
def State.copyImage (s : State) (bytes : List Byte) : State :=
  { s with mem := s.mem.writeBytes userBase bytes }

/-- The machine right after `Reset` with given parameters (R140). -/
def State.resetWith (p : Params) : State :=
  { State.reset with mem := Memory.fromImage p.bootImage, params := p }

end Sys2Proof.Machine
end

