-- ==== Sys2Proof/Machine/Flags.lean ====
section
/-! DEFINITION. Every computation of the one flag, `VF`, each exactly 0 or 1 (spec 10_state.md R11). -/

namespace Sys2Proof.Machine

/-- A flag value: exactly 0 or 1 (R11). -/
def flagOf (c : Bool) : Byte := if c then 1 else 0

/-- Carry out of bit 7: 1 if the sum exceeds 255 (R77). -/
def carryFlag (a b : Byte) : Byte := flagOf (decide (255 < a.toNat + b.toNat))

/-- No borrow of `a - b`: 1 if `a >= b` (R78, R80). -/
def noBorrowFlag (a b : Byte) : Byte := flagOf (decide (b.toNat ≤ a.toNat))

/-- The bit a right shift by one shifts out (R79). -/
def shiftRightFlag (a : Byte) : Byte := flagOf (a.getLsbD 0)

/-- The bit a left shift by one shifts out (R81). -/
def shiftLeftFlag (a : Byte) : Byte := flagOf (a.getLsbD 7)

/-- Write `VF`, that is `V[15]` (R11). -/
def State.writeFlag (s : State) (f : Byte) : State := s.writeV 0xF f

/-- The result to `V[x]` first, the flag to `VF` last: with `x = 15` the flag wins (R82, D17). -/
def completeWithFlag (s : State) (x : Nibble) (result flag : Byte) : Host.Outcome State Fault Refusal :=
  complete ((s.writeV x result).writeFlag flag)

end Sys2Proof.Machine
end

