-- ==== Sys2Proof/Machine/Alu.lean ====
section
/-! DEFINITION. Family 8: register-register ALU (spec 44_alu.md). Operands are read before anything is
written, and `VF` is written last (R82). -/

namespace Sys2Proof.Machine

/-- LD Vx, Vy (R73). -/
def execLdReg (x y : Nibble) (s : State) : Host.Outcome State Fault Refusal :=
  complete (s.writeV x (s.readV y))

/-- OR Vx, Vy (R74): `VF` is left alone. -/
def execOrReg (x y : Nibble) (s : State) : Host.Outcome State Fault Refusal :=
  complete (s.writeV x (s.readV x ||| s.readV y))

/-- AND Vx, Vy (R75): `VF` is left alone. -/
def execAndReg (x y : Nibble) (s : State) : Host.Outcome State Fault Refusal :=
  complete (s.writeV x (s.readV x &&& s.readV y))

/-- XOR Vx, Vy (R76): `VF` is left alone. -/
def execXorReg (x y : Nibble) (s : State) : Host.Outcome State Fault Refusal :=
  complete (s.writeV x (s.readV x ^^^ s.readV y))

/-- ADD Vx, Vy (R77): `VF` is the carry; the old `VF` is not added in. -/
def execAddReg (x y : Nibble) (s : State) : Host.Outcome State Fault Refusal :=
  completeWithFlag s x (s.readV x + s.readV y) (carryFlag (s.readV x) (s.readV y))

/-- SUB Vx, Vy (R78): `VF` is 1 when `V[x] >= V[y]`. -/
def execSubReg (x y : Nibble) (s : State) : Host.Outcome State Fault Refusal :=
  completeWithFlag s x (s.readV x - s.readV y) (noBorrowFlag (s.readV x) (s.readV y))

/-- SHR Vx (R79): `V[x]` in place, `y` ignored (D16). -/
def execShr (x _y : Nibble) (s : State) : Host.Outcome State Fault Refusal :=
  completeWithFlag s x (s.readV x >>> 1) (shiftRightFlag (s.readV x))

/-- SUBN Vx, Vy (R80): `V[y] - V[x]`, `VF` is 1 when `V[y] >= V[x]`, else 0 (D33). -/
def execSubn (x y : Nibble) (s : State) : Host.Outcome State Fault Refusal :=
  completeWithFlag s x (s.readV y - s.readV x) (noBorrowFlag (s.readV y) (s.readV x))

/-- SHL Vx (R81): `V[x]` in place, `y` ignored (D16). -/
def execShl (x _y : Nibble) (s : State) : Host.Outcome State Fault Refusal :=
  completeWithFlag s x (s.readV x <<< 1) (shiftLeftFlag (s.readV x))

end Sys2Proof.Machine
end

