-- ==== Sys2Proof/Machine/Operands.lean ====
section
/-! DEFINITION. The operand forms: immediates, the address in `I`, register runs, key selection, decimal
digits, glyph addresses (spec 30_encoding.md R48 and the family files). -/

namespace Sys2Proof.Machine

/-- `zext_16(nnn)`: 0x000 to 0xFFF (R48). -/
def zextAddr (nnn : Addr12) : Word := nnn.setWidth 16

/-- `zext_16(b)` (R5). -/
def zextByte (b : Byte) : Word := b.setWidth 16

/-- The address in `I` as a natural number; `I + k` is never wrapped (R38). -/
def State.dataAddr (s : State) : Nat := s.regI.toNat

/-- The number of registers in `V[0]..V[x]`, inclusive (R95, R96). -/
def runLength (x : Nibble) : Nat := x.toNat + 1

/-- The values of `V[0]..V[x]`, ascending (R95). -/
def State.regRun (s : State) (x : Nibble) : List Byte := s.v.toList.take (runLength x)

/-- The register file with its first registers taken from the bytes (R96). -/
def loadRun (v : Vector Byte 16) (bytes : List Byte) : Vector Byte 16 :=
  Vector.ofFn fun i => (bytes[i.val]?).getD v[i]

/-- The three decimal digits, hundreds first, each a whole byte (R94). -/
def bcdDigits (b : Byte) : List Byte := [b / 100, (b / 10) % 10, b % 10]

/-- The address of glyph `b`: 0x050 + b*5, the whole byte, no reduction to a nibble (R93). -/
def glyphAddr (b : Byte) : Word := BitVec.ofNat 16 fontBase + zextByte b * 5

/-- Key `k` is down, for `k` below 16 (R21, R87). -/
def State.keyDown (s : State) (k : Nat) : Bool := s.keys.getLsbD k

/-- The keys in the order of the parameter `KEY_PICK`: the preferred ones, then all from 0 upward. -/
def keyOrder (p : Params) : List Nat := p.keyFirst.map BitVec.toNat ++ List.range 16

/-- The index of the first pressed key in the order of `KEY_PICK`, none when no key is down; with the
default parameter it is the lowest (R89, D20). Log 3. -/
def keyPick (p : Params) (keys : BitVec 16) : Option Byte :=
  ((keyOrder p).find? fun k => keys.getLsbD k).map (BitVec.ofNat 8)

end Sys2Proof.Machine
end

