-- ==== Sys2Proof/Machine/Draw.lean ====
section
/-! DEFINITION. Family D: DRW, drawing a sprite by exclusive OR with clipping and a collision flag
(spec 45_draw.md). -/

namespace Sys2Proof.Machine

/-- The framebuffer and whether a drawn pixel hit a set cell so far (R83). -/
abbrev Canvas := Framebuffer × Bool

/-- The pixel of column offset `c` of a sprite row: bit 7 is the leftmost (R84, D18). -/
def spriteBit (b : Byte) (c : Nat) : Bool := b.getLsbD (7 - c)

/-- One pixel at column `cx`, row `cy`: clipped outside the 64 x 32 grid; a 0 bit changes nothing (R83). -/
def drawPixel (cv : Canvas) (on : Bool) (cx cy : Nat) : Canvas :=
  if h : cy < 32 then
    if on = true ∧ cx < 64 then
      (cv.1.set cy (cv.1[cy] ^^^ (1#64 <<< cx)) h, cv.2 || cv.1[cy].getLsbD cx)
    else cv
  else cv

/-- The last `k` columns of a sprite row, in column order, the row's first column being at `x0` (R83). -/
def drawColumns (cv : Canvas) (b : Byte) (x0 cy : Nat) : Nat → Canvas
  | 0 => cv
  | k + 1 => drawColumns (drawPixel cv (spriteBit b (7 - k)) (x0 + (7 - k)) cy) b x0 cy k

/-- The rows of a sprite, downward from row `cy` (R83, R84). -/
def drawRows (cv : Canvas) (x0 cy : Nat) : List Byte → Canvas
  | [] => cv
  | b :: bs => drawRows (drawColumns cv b x0 cy 8) x0 (cy + 1) bs

/-- The picture a DRW leaves, and whether it collided: origin `(V[x] mod 64, V[y] mod 32)`, the `n`
bytes from `I` (R83). -/
def drawSprite (s : State) (x y n : Nibble) : Canvas :=
  drawRows (s.fb, false) ((s.readV x).toNat % 64) ((s.readV y).toNat % 32)
    (s.mem.readBytes s.dataAddr n.toNat)

/-- DRW Vx, Vy, n (R83): all `n` addresses are checked before any effect, clipped rows too; `VF` is
written last, 1 on a collision and 0 otherwise (D14, D18). -/
def execDrw (x y n : Nibble) (s : State) : Host.Outcome State Fault Refusal :=
  withAccess s s.dataAddr n.toNat
    ({ s with fb := (drawSprite s x y n).1 }.writeFlag (flagOf (drawSprite s x y n).2))

end Sys2Proof.Machine
end

