-- ==== Sys2Proof/Machine/Family0.lean ====
section
/-! DEFINITION. Family 0: CLS and RET (spec 40_family0_cls_ret.md). -/

namespace Sys2Proof.Machine

/-- Every cell 0 (R60). -/
def clearedFramebuffer : Framebuffer := Vector.replicate 32 0

/-- CLS (R60). -/
def execCls (s : State) : Host.Outcome State Fault Refusal :=
  complete { s with fb := clearedFramebuffer }

/-- RET (R61): a pop at `sp = 0` is StackUnderflow. -/
def execRet (s : State) : Host.Outcome State Fault Refusal :=
  if s.sp = 0 then raise .stackUnderflow s else s.pop

end Sys2Proof.Machine
end

