-- ==== Sys2Proof/Machine/FxUser.lean ====
section
/-! DEFINITION. Family F with `x != 0`: timers, key wait, index register, decimal digits, register store
and load (spec 47_fx_user.md). They execute in both modes alike (R97). -/

namespace Sys2Proof.Machine

/-- LD Vx, DT (R88). -/
def execLdVxDt (x : Nibble) (s : State) : Host.Outcome State Fault Refusal :=
  complete (s.writeV x s.dt)

/-- LD Vx, K (R89): with no key down `pc` is rewound to the instruction and the outcome is `Repeat`. -/
def execLdVxK (x : Nibble) (s : State) : Host.Outcome State Fault Refusal :=
  match keyPick s.params s.keys with
  | some k => complete (s.writeV x k)
  | none => .next { s with output := Output.ofCycle .repeat_ }

/-- LD DT, Vx (R90). -/
def execLdDtVx (x : Nibble) (s : State) : Host.Outcome State Fault Refusal :=
  complete { s with dt := s.readV x }

/-- LD ST, Vx (R91). -/
def execLdStVx (x : Nibble) (s : State) : Host.Outcome State Fault Refusal :=
  complete { s with st := s.readV x }

/-- ADD I, Vx (R92): modulo 65,536, no flag, no check (D15). -/
def execAddI (x : Nibble) (s : State) : Host.Outcome State Fault Refusal :=
  complete { s with regI := s.regI + zextByte (s.readV x) }

/-- LD F, Vx (R93). -/
def execLdF (x : Nibble) (s : State) : Host.Outcome State Fault Refusal :=
  complete { s with regI := glyphAddr (s.readV x) }

/-- LD B, Vx (R94): three addresses checked, then three bytes stored. -/
def execLdB (x : Nibble) (s : State) : Host.Outcome State Fault Refusal :=
  withAccess s s.dataAddr 3 { s with mem := s.mem.writeBytes s.dataAddr (bcdDigits (s.readV x)) }

/-- LD [I], Vx (R95): `x + 1` addresses checked, then the bytes stored; `I` is unchanged (D21). -/
def execStoreRegs (x : Nibble) (s : State) : Host.Outcome State Fault Refusal :=
  withAccess s s.dataAddr (runLength x) { s with mem := s.mem.writeBytes s.dataAddr (s.regRun x) }

/-- LD Vx, [I] (R96): `x + 1` addresses checked, then the registers loaded; `I` is unchanged (D21). -/
def execLoadRegs (x : Nibble) (s : State) : Host.Outcome State Fault Refusal :=
  withAccess s s.dataAddr (runLength x)
    { s with v := loadRun s.v (s.mem.readBytes s.dataAddr (runLength x)) }

end Sys2Proof.Machine
end

