-- ==== Sys2Proof/Machine/Immediate.lean ====
section
/-! DEFINITION. Families 6, 7, A and C: immediates and the random byte (spec 43_immediate.md). -/

namespace Sys2Proof.Machine

/-- LD Vx, nn (R69). -/
def execLdImm (x : Nibble) (nn : Byte) (s : State) : Host.Outcome State Fault Refusal :=
  complete (s.writeV x nn)

/-- ADD Vx, nn (R70): 8-bit wraparound, no flag. -/
def execAddImm (x : Nibble) (nn : Byte) (s : State) : Host.Outcome State Fault Refusal :=
  complete (s.writeV x (s.readV x + nn))

/-- LD I, nnn (R71). -/
def execLdI (nnn : Addr12) (s : State) : Host.Outcome State Fault Refusal :=
  complete { s with regI := zextAddr nnn }

/-- RND Vx, nn (R72): a free byte under the mask; each execution takes a draw of its own. Log 4. -/
def execRnd (x : Nibble) (nn : Byte) (s : State) : Host.Outcome State Fault Refusal :=
  complete { s.writeV x (Config.randomByte s.draws &&& nn) with draws := s.draws + 1 }

end Sys2Proof.Machine
end

