-- ==== Sys2Proof/Machine/JumpCall.lean ====
section
/-! DEFINITION. Families 1, 2 and B: JP, CALL, JP V0 (spec 41_jump_call.md). -/

namespace Sys2Proof.Machine

/-- JP nnn (R62). -/
def execJp (nnn : Addr12) (s : State) : Host.Outcome State Fault Refusal := completeAt (zextAddr nnn) s

/-- CALL nnn (R63): a push at `sp = 16` is StackOverflow; the pushed value is the provisional advance. -/
def execCall (nnn : Addr12) (s : State) : Host.Outcome State Fault Refusal :=
  if s.sp = 16 then raise .stackOverflow s else s.push (s.pc + 2) (zextAddr nnn)

/-- JP V0, nnn (R64): the sum is not reduced to 12 bits. -/
def execJpV0 (nnn : Addr12) (s : State) : Host.Outcome State Fault Refusal :=
  completeAt (zextAddr nnn + zextByte (s.readV 0)) s

end Sys2Proof.Machine
end

