-- ==== Sys2Proof/Machine/Keys.lean ====
section
/-! DEFINITION. Family E: skips on a key (spec 46_keys.md). -/

namespace Sys2Proof.Machine

/-- SKP Vx (R85); a key number above 15 is KeyIndexOutOfRange (R87, D19). -/
def execSkp (x : Nibble) (s : State) : Host.Outcome State Fault Refusal :=
  if 15 < (s.readV x).toNat then raise (.keyIndexOutOfRange (s.readV x)) s
  else skipWhen (s.keyDown (s.readV x).toNat) s

/-- SKNP Vx (R86); a key number above 15 is KeyIndexOutOfRange (R87, D19). -/
def execSknp (x : Nibble) (s : State) : Host.Outcome State Fault Refusal :=
  if 15 < (s.readV x).toNat then raise (.keyIndexOutOfRange (s.readV x)) s
  else skipWhen (!s.keyDown (s.readV x).toNat) s

end Sys2Proof.Machine
end

