-- ==== Sys2Proof/Machine/Skip.lean ====
section
/-! DEFINITION. Families 3, 4, 5 and 9: conditional skips on registers (spec 42_skip.md). -/

namespace Sys2Proof.Machine

/-- SE Vx, nn (R65). -/
def execSeImm (x : Nibble) (nn : Byte) (s : State) : Host.Outcome State Fault Refusal :=
  skipWhen (s.readV x == nn) s

/-- SNE Vx, nn (R66). -/
def execSneImm (x : Nibble) (nn : Byte) (s : State) : Host.Outcome State Fault Refusal :=
  skipWhen (s.readV x != nn) s

/-- SE Vx, Vy (R67). -/
def execSeReg (x y : Nibble) (s : State) : Host.Outcome State Fault Refusal :=
  skipWhen (s.readV x == s.readV y) s

/-- SNE Vx, Vy (R68). -/
def execSneReg (x y : Nibble) (s : State) : Host.Outcome State Fault Refusal :=
  skipWhen (s.readV x != s.readV y) s

end Sys2Proof.Machine
end

