-- ==== Sys2Proof/Machine/Syscall.lean ====
section
/-! DEFINITION. Family F with `x = 0`: the privilege-mode dispatcher and the kernel services
(spec 48_kernel_syscalls.md). -/

namespace Sys2Proof.Machine

/-- `can_invoke_kernel_syscall(mode)` (R106). -/
def canInvokeKernelSyscall (m : Mode) : Bool := decide (m = .kernel)

/-- The word of a syscall id. -/
def syscallWord (nn : Byte) : Word := 0xF0#8 ++ nn

/-- The router for `F0nn` (R98): the service in Kernel mode, PrivilegeViolation in User mode (R104, D9). -/
def syscall (nn : Byte) (service : Host.Outcome State Fault Refusal) (s : State) :
    Host.Outcome State Fault Refusal :=
  if canInvokeKernelSyscall s.mode then service else raise (.privilegeViolationWord (syscallWord nn)) s

/-- The state KRESET leaves, but for `pc` (R99): registers, `I`, stack and `sp` zero, memory below the
kernel region zero but for the font. -/
def State.kernelReset (s : State) : State :=
  { s with
    v := Vector.replicate 16 0
    regI := 0
    stack := Vector.replicate 16 0
    sp := 0
    mem := (s.mem.clearLow).writeBytes fontBase s.params.fontTable.toList }

/-- KSYS 0x00, KRESET (R99). -/
def execKreset (s : State) : Host.Outcome State Fault Refusal :=
  syscall 0x00 (complete s.kernelReset) s

/-- KSYS 0x04, KIORESET (R100). -/
def execKioreset (s : State) : Host.Outcome State Fault Refusal :=
  syscall 0x04 (complete { s with fb := clearedFramebuffer, dt := 0, st := 0, keys := 0 }) s

/-- KSYS 0x06, KSHELL (R101): emits `ShellInit`, no state of the block changes. -/
def execKshell (s : State) : Host.Outcome State Fault Refusal :=
  syscall 0x06 (.next { s.retireWith .ok with output := { report := .cycle .ok, shellInit := true } }) s

/-- The load of slot `V[0]` in Kernel mode (R102): a failure is a no-op with a diagnostic. -/
def kernelLoad (s : State) : Host.Outcome State Fault Refusal :=
  match s.diskEntry (s.readV 0).toNat with
  | none => completeDiag (.diskEntryNotFound (s.readV 0)) s
  | some e =>
    if loadLimit < e.bytes.length then completeDiag (.loadTooLarge (s.readV 0)) s
    else completeAt 0x200 (s.copyImage e.bytes)

/-- KSYS 0x08, KLOAD (R102). -/
def execKload (s : State) : Host.Outcome State Fault Refusal := syscall 0x08 (kernelLoad s) s

/-- KSYS nn, any other id (R103): a no-op with a diagnostic in Kernel mode. -/
def execKsys (nn : Byte) (s : State) : Host.Outcome State Fault Refusal :=
  syscall nn (completeDiag (.unknownOpcode (syscallWord nn) s.pc) s) s

end Sys2Proof.Machine
end

