-- ==== Sys2Proof/Machine/Unknown.lean ====
section
/-! DEFINITION. The unknown opcodes (spec 30_encoding.md R51, R52). -/

namespace Sys2Proof.Machine

/-- UNKNOWN: a no-op with a diagnostic that names the word and its address (R51). -/
def execUnknown (op : Word) (s : State) : Host.Outcome State Fault Refusal :=
  completeDiag (.unknownOpcode op s.pc) s

end Sys2Proof.Machine
end

