-- ==== Sys2Proof/Machine/Cycle.lean ====
section
/-! DEFINITION. One `Cycle` event (spec 30_encoding.md R49). -/

namespace Sys2Proof.Machine

/-- Apply the boot-exit test to a next state (R49, R123). -/
def endOfCycle (o : Host.Outcome State Fault Refusal) : Host.Outcome State Fault Refusal :=
  match o with
  | .next s => .next s.bootExit
  | .fault f => .fault f
  | .refused r => .refused r

/-- Fetch, decode, execute, boot-exit test (R49); a fetch that fails its check is never decoded (R117). -/
def runCycle (s : State) : Host.Outcome State Fault Refusal :=
  match fetch s with
  | .error f => raise f s
  | .ok op => endOfCycle (exec (decodeWord op) s)

/-- The `Cycle` event by phase (R49, R120, D29): refused before the first `Reset`, idle when halted. -/
def cycle (s : State) : Host.Outcome State Fault Refusal :=
  match s.phase with
  | .uninitialized => .refused .uninitialized
  | .halted => .next { s with output := Output.ofCycle .idle }
  | .kernelBoot => runCycle s
  | .userRunning => runCycle s

end Sys2Proof.Machine
end

