-- ==== Sys2Proof/Machine/Events.lean ====
section
/-! DEFINITION. The host events (spec 00_scope.md R7, 60_exceptions.md, 70_reset_and_hazards.md). -/

namespace Sys2Proof.Machine

/-- A timer one tick later: never below 0 (R127). -/
def tickDown (t : Byte) : Byte := if 0 < t.toNat then t - 1 else t

/-- `Tick` (R127): both counters, independently, and nothing else. -/
def State.tick (s : State) : State :=
  { s with dt := tickDown s.dt, st := tickDown s.st, output := Output.nothing }

/-- `SetKeys(k)` (R129). -/
def State.setKeys (k : BitVec 16) (s : State) : State := { s with keys := k, output := Output.nothing }

/-- `HaltRequest` (R124): the explicit exit request; in the other phases nothing. -/
def State.haltRequest (s : State) : State :=
  match s.phase with
  | .kernelBoot => { s with phase := .halted, haltCause := .exitRequest, output := Output.nothing }
  | .userRunning => { s with phase := .halted, haltCause := .exitRequest, output := Output.nothing }
  | .uninitialized => { s with output := Output.nothing }
  | .halted => { s with output := Output.nothing }

/-- The entry a selector names (R143): the slot of an index, or the first slot whose entry bears the
name. Log 11. -/
def State.findEntry (s : State) (sel : LoadSelector) : Option DiskEntry :=
  match sel with
  | .index n => s.diskEntry n
  | .name nm => s.params.disk.toList.findSome? fun slot => slot.filter fun e => decide (e.name = nm)

/-- What `Load` reports (R143). -/
def State.loadResult (s : State) (sel : LoadSelector) : LoadResult :=
  if s.phase ≠ .userRunning then .refused
  else
    match s.findEntry sel with
    | none => .notFound
    | some e => if loadLimit < e.bytes.length then .tooLarge else .ok

/-- The output of a `Load`. -/
def Output.ofLoad (r : LoadResult) : Output := { report := .load r, shellInit := false }

/-- `Load(sel)` (R143): on success the image is copied to 0x200 and `pc` set there, otherwise no state
change. -/
def State.load (sel : LoadSelector) (s : State) : State :=
  match s.loadResult sel, s.findEntry sel with
  | .ok, some e => { s.copyImage e.bytes with pc := 0x200, output := Output.ofLoad .ok }
  | r, _ => { s with output := Output.ofLoad r }

/-- `ReadFramebuffer` (R129): returns the cells, changes nothing. -/
def State.readFramebuffer (s : State) : State :=
  { s with output := { report := .framebuffer s.fb, shellInit := false } }

/-- `Reset` (R140): every piece of the spec's state takes its reset value; the parameters, the disk among
them, are not touched, nor are the counter of draws and the host's further events. Logs 4, 9. -/
def State.resetEvent (s : State) : State :=
  { State.resetWith s.params with draws := s.draws, inbox := s.inbox }

/-- An event other than `Reset`, `Load` and `HaltRequest` has no step before the first `Reset`
(R17, R25, D29). Log 10. -/
def whenInitialized (s : State) (t : State) : Host.Outcome State Fault Refusal :=
  match s.phase with
  | .uninitialized => .refused .uninitialized
  | .kernelBoot => .next t
  | .userRunning => .next t
  | .halted => .next t

/-- One atomic event applied to the whole state (R7). -/
def applyEvent (e : HostEvent) (s : State) : Host.Outcome State Fault Refusal :=
  match e with
  | .reset => .next s.resetEvent
  | .cycle => cycle s
  | .tick => whenInitialized s s.tick
  | .setKeys k => whenInitialized s (s.setKeys k)
  | .load sel => .next (s.load sel)
  | .haltRequest => .next s.haltRequest
  | .readFramebuffer => whenInitialized s s.readFramebuffer

/-- The next event: the first of the host's inbox, and a `Cycle` when it is empty (R7, R134). Log 9. -/
def nextEvent (s : State) : Host.Outcome State Fault Refusal :=
  match s.inbox with
  | [] => applyEvent .cycle s
  | e :: rest => applyEvent e { s with inbox := rest }

/-- The state with a word placed at `pc`, high byte first (R32), and no host event before the next cycle.
Log 12. -/
def State.placeWord (s : State) (op : Word) : State :=
  { s with mem := s.mem.writeBytes s.pc.toNat [highByte op, lowByte op], inbox := [] }

end Sys2Proof.Machine
end

