-- ==== Sys2Proof/Machine/Step.lean ====
section
/-! DEFINITION. The step: one atomic event (spec 00_scope.md R7), and where an instruction is placed to be
fetched next. -/

namespace Sys2Proof.Machine

/-- One step: the next event of the host, a `Cycle` when it has none waiting. -/
def step (s : State) : Host.Outcome State Fault Refusal := nextEvent s

/-- `s` with an instruction stored where the next `Cycle` fetches it; its bits are numbered as the opcode
table numbers them, bits at and above `nbits` are 0. Log 12. -/
def State.withFetchWord (s : State) (nbits w : Nat) : State :=
  s.placeWord (BitVec.ofNat 16 (w % 2 ^ nbits))

end Sys2Proof.Machine
end

