-- ==== Sys2Proof/Safety.lean ====
section
/-! DEFINITION. The terms claims are stated in: what a step leaves unchanged, the invariant of reachable
states (spec 10_state.md R27), and the picture a sprite covers (spec 45_draw.md R83, R84). -/

namespace Sys2Proof.Machine

/-- One piece of the state, for saying what a step leaves unchanged. -/
inductive Part where
  | v | regI | pc | stack | sp | mode | phase | haltCause | dt | st | keys | fb | mem
  | params | draws | output | inbox
  deriving DecidableEq, Repr

/-- The piece reads the same in both states; memory through the read of each byte. -/
def Part.same (p : Part) (s t : State) : Prop :=
  match p with
  | .v => ∀ r : Nibble, t.readV r = s.readV r
  | .regI => t.regI = s.regI
  | .pc => t.pc = s.pc
  | .stack => t.stack = s.stack
  | .sp => t.sp = s.sp
  | .mode => t.mode = s.mode
  | .phase => t.phase = s.phase
  | .haltCause => t.haltCause = s.haltCause
  | .dt => t.dt = s.dt
  | .st => t.st = s.st
  | .keys => t.keys = s.keys
  | .fb => t.fb = s.fb
  | .mem => ∀ a : Nat, t.readByte a = s.readByte a
  | .params => t.params = s.params
  | .draws => t.draws = s.draws
  | .output => t.output = s.output
  | .inbox => t.inbox = s.inbox

/-- Every piece of the state but the named ones is unchanged. -/
def SameExcept (may : List Part) (s t : State) : Prop := ∀ p : Part, p ∉ may → p.same s t

/-- Every general register but `V[x]` is unchanged. -/
def RegsExcept (x : Nibble) (s t : State) : Prop := ∀ r : Nibble, r ≠ x → t.readV r = s.readV r

/-- Every byte outside the `n` bytes from `a` reads as before. -/
def BytesExcept (a n : Nat) (s t : State) : Prop :=
  ∀ b : Nat, b < a ∨ a + n ≤ b → t.readByte b = s.readByte b

/-- The instruction completed: `pc` is the provisional advance and the outcome is `Ok` (R8, R13). -/
def Completed (s t : State) : Prop := t.pc = s.pc + 2 ∧ t.output = Output.ofCycle .ok

/-- The instruction completed and wrote `b` to `V[x]`, and nothing else but `pc` and the output. -/
def SetsRegister (x : Nibble) (b : Byte) (s t : State) : Prop :=
  t.readV x = b ∧ RegsExcept x s t ∧ SameExcept [.v, .pc, .output] s t ∧ Completed s t

/-- The instruction completed, wrote `b` to `V[x]` and then the flag `f` to `VF`, so that with `x = 15`
the flag stands (R82), and nothing else but `pc` and the output. -/
def SetsRegisterAndFlag (x : Nibble) (b f : Byte) (s t : State) : Prop :=
  t.readV 0xF = f ∧ (x ≠ 0xF → t.readV x = b) ∧
  (∀ r : Nibble, r ≠ x → r ≠ 0xF → t.readV r = s.readV r) ∧
  SameExcept [.v, .pc, .output] s t ∧ Completed s t

/-- The fatal fault `f` was taken with nothing of the cycle committed (R111). -/
def HaltedBy (f : FatalFault) (s t : State) : Prop :=
  t.phase = .halted ∧ t.haltCause = f.cause ∧ t.output = Output.ofCycle (.fault f) ∧
  SameExcept [.phase, .haltCause, .output] s t

/-- Cycles execute in this phase (R17). -/
def State.Running (s : State) : Prop := s.phase = .kernelBoot ∨ s.phase = .userRunning

/-- Every one of the `n` addresses from `a` passes the check (R37). -/
def State.Accessible (s : State) (a n : Nat) : Prop := ∀ k : Nat, k < n → s.check (a + k) = none

/-- `f` is the fault of the lowest of the `n` addresses from `a` that fails the check (R37). -/
def State.FirstFault (s : State) (a n : Nat) (f : FatalFault) : Prop :=
  ∃ k : Nat, k < n ∧ (∀ j : Nat, j < k → s.check (a + j) = none) ∧ s.check (a + k) = some f

/-- The invariants of R27 in every state reachable from `Reset`, with memory in canonical form. -/
structure State.Inv (s : State) : Prop where
  sp_le : s.sp.toNat ≤ 16
  pc_le : s.pc.toNat ≤ 0x1402
  stack_le : ∀ k : Nat, (h : k < 16) → (s.stack[k]'h).toNat ≤ 0x1400
  boot : s.phase = .kernelBoot → s.mode = .kernel ∧ 0x1000 ≤ s.pc.toNat ∧ s.pc.toNat ≤ 0x13FF
  user : s.phase = .userRunning → s.mode = .user
  cause : s.haltCause = .none ↔ s.phase ≠ .halted
  mem_wf : s.mem.wf = true
  mem_range : s.mem.inRange = true

/-- The cell `k` is drawn by a sprite of `rows` rows with its corner at column `x0`, row `y0`: the pixel
lies under a set bit of its row; what falls outside the grid is no cell (R83, R84). -/
def covers (row : Nat → Byte) (rows x0 y0 k : Nat) : Bool :=
  decide (x0 ≤ k % 64 ∧ k % 64 < x0 + 8 ∧ y0 ≤ k / 64 ∧ k / 64 < y0 + rows) &&
    (row (k / 64 - y0)).getLsbD (7 - (k % 64 - x0))

/-- The cell `k` is drawn by DRW Vx, Vy, n: row `r` is the byte at `I + r`, the corner is at column
`V[x] mod 64`, row `V[y] mod 32` (R83, R84). -/
def State.spriteCovers (s : State) (x y n : Nibble) (k : Nat) : Bool :=
  covers (fun r => s.readByte (s.regI.toNat + r)) n.toNat ((s.readV x).toNat % 64)
    ((s.readV y).toNat % 32) k

/-- The pieces of state an instruction may write when it completes, beside `pc` and the output
(spec 10_state.md R10 to R23). -/
def writtenParts (i : Instr) : List Part :=
  match i with
  | .cls => [.fb]
  | .ret => [.sp]
  | .call _ => [.stack, .sp]
  | .ldImm _ _ | .addImm _ _ | .ldReg _ _ | .orReg _ _ | .andReg _ _ | .xorReg _ _ | .addReg _ _
  | .subReg _ _ | .shr _ _ | .subn _ _ | .shl _ _ | .ldVxDt _ | .ldVxK _ | .loadRegs _ => [.v]
  | .ldI _ | .addI _ | .ldF _ => [.regI]
  | .rnd _ _ => [.v, .draws]
  | .drw _ _ _ => [.v, .fb]
  | .ldDtVx _ => [.dt]
  | .ldStVx _ => [.st]
  | .ldB _ | .storeRegs _ | .kload => [.mem]
  | .kreset => [.v, .regI, .stack, .sp, .mem]
  | .kioreset => [.fb, .dt, .st, .keys]
  | .jp _ | .seImm _ _ | .sneImm _ _ | .seReg _ _ | .sneReg _ _ | .jpV0 _ | .skp _ | .sknp _
  | .kshell | .ksys _ | .unknown _ => []

/-- The instruction writes `VF`: as flag (R11), or because a register it writes is register 15. -/
def writesVF (i : Instr) : Bool :=
  match i with
  | .addReg _ _ | .subReg _ _ | .shr _ _ | .subn _ _ | .shl _ _ | .drw _ _ _ | .kreset => true
  | .ldImm x _ | .addImm x _ | .ldReg x _ | .orReg x _ | .andReg x _ | .xorReg x _ | .rnd x _
  | .ldVxDt x | .ldVxK x | .loadRegs x => x == 0xF
  | .cls | .ret | .call _ | .jp _ | .jpV0 _ | .seImm _ _ | .sneImm _ _ | .seReg _ _ | .sneReg _ _
  | .ldI _ | .skp _ | .sknp _ | .ldDtVx _ | .ldStVx _ | .addI _ | .ldF _ | .ldB _ | .storeRegs _
  | .kioreset | .kshell | .kload | .ksys _ | .unknown _ => false

end Sys2Proof.Machine
end

