-- ==== Sys2Proof/Certificates/Slice0/Obligations.lean ====
section
/-! DEFINITION. The statements for the provers. Where a clause rests on a decision of the specification
(spec/92_eei_decisions.md) or on the model's own choice, the docstring says so. -/

open Sys2Proof Sys2Proof.Machine

/-! ### Encoding -/

/-- Words written out from the patterns of R50, one or more of every family, decode to their instructions. -/
def Obligations.SampleWordsDecode : Prop :=
  decodeWord 0x00E0 = .cls ∧ decodeWord 0x00EE = .ret ∧ decodeWord 0x1ABC = .jp 0xABC ∧
  decodeWord 0x2300 = .call 0x300 ∧ decodeWord 0x3A42 = .seImm 0xA 0x42 ∧
  decodeWord 0x4A42 = .sneImm 0xA 0x42 ∧ decodeWord 0x5AB0 = .seReg 0xA 0xB ∧
  decodeWord 0x5AB1 = .unknown 0x5AB1 ∧ decodeWord 0x6F12 = .ldImm 0xF 0x12 ∧
  decodeWord 0x71FF = .addImm 0x1 0xFF ∧ decodeWord 0x8125 = .subReg 0x1 0x2 ∧
  decodeWord 0x812F = .unknown 0x812F ∧ decodeWord 0x9AB0 = .sneReg 0xA 0xB ∧
  decodeWord 0xAFFF = .ldI 0xFFF ∧ decodeWord 0xB201 = .jpV0 0x201 ∧ decodeWord 0xC3F0 = .rnd 0x3 0xF0 ∧
  decodeWord 0xD12F = .drw 0x1 0x2 0xF ∧ decodeWord 0xE39E = .skp 0x3 ∧ decodeWord 0xE0A1 = .sknp 0x0 ∧
  decodeWord 0xF265 = .loadRegs 0x2 ∧ decodeWord 0xF065 = .ksys 0x65 ∧ decodeWord 0xF008 = .kload ∧
  decodeWord 0x0000 = .unknown 0x0000

/-- DECODE AND ENCODE AGREE: the two bytes of every well-formed instruction, with anything after them,
decode to that instruction and leave the rest. -/
def Obligations.DecodeOfEncode : Prop :=
  ∀ (i : Instr) (rest : List Byte), i.wellFormed = true →
    decode (encodeBytes i ++ rest) = .ok (i, rest)

/-- No bit of a word is lost: encoding what any of the 65,536 words decodes to gives the word back. -/
def Obligations.EncodeOfDecode : Prop := ∀ op : Word, encode (decodeWord op) = op

/-- Every word decodes to a well-formed instruction: `x` is not 0 in a user instruction of family F, a
`KSYS nn` has an undefined id, UNKNOWN stands for words of no other row. -/
def Obligations.DecodeIsWellFormed : Prop := ∀ op : Word, (decodeWord op).wellFormed = true

/-- A word is an unknown opcode exactly when no row of the match and mask table selects it. -/
def Obligations.UnknownExactlyWhenNoRow : Prop :=
  ∀ op : Word, (∃ v : Word, decodeWord op = .unknown v) ↔ isKnown op = false

/-- With their constraints, no two rows of the table are selected by one word. -/
def Obligations.RowsDisjoint : Prop :=
  ∀ (op : Word) (r₁ r₂ : Row), r₁ ∈ opcodeRows → r₂ ∈ opcodeRows →
    r₁.selects op = true → r₂.selects op = true → r₁ = r₂

/-! ### The step -/

/-- A STEP RUNS THE DECODED INSTRUCTION: in a phase that executes, when both fetch addresses pass the check
and the two bytes at `pc`, high byte first, decode to a well-formed `i`, the Cycle event is `exec i` at that
state, followed by the boot-exit test on a next state. With no host event waiting a step is the Cycle event;
a waiting host event, a Cycle among them, goes first and is taken off the inbox (the inbox is the model's
own, log 9). -/
def Obligations.StepRunsDecodedInstruction : Prop :=
  (∀ (s : State) (e : HostEvent) (rest : List HostEvent), s.inbox = e :: rest →
    step s = applyEvent e { s with inbox := rest }) ∧
  (∀ s : State, s.inbox = [] → step s = applyEvent .cycle s) ∧
  (∀ (s : State) (i : Instr), s.Running → s.Accessible s.pc.toNat 2 → i.wellFormed = true →
    decode [s.readByte s.pc.toNat, s.readByte (s.pc.toNat + 1)] = .ok (i, []) →
    applyEvent .cycle s = endOfCycle (exec i s) ∧
    (s.inbox = [] → step s = endOfCycle (exec i s))) ∧
  (∀ (hi lo : Byte) (rest : List Byte), ∃ op : Word, op.toNat = hi.toNat * 256 + lo.toNat ∧
    decode (hi :: lo :: rest) = .ok (decodeWord op, rest)) ∧
  (∀ t : State, endOfCycle (.next t) = .next t.bootExit) ∧
  (∀ f : Fault, endOfCycle (.fault f) = .fault f) ∧
  (∀ r : Refusal, endOfCycle (.refused r) = .refused r)

/-- A fetch whose check fails halts the machine by the fault of the lower failing address, nothing of the
cycle committed, with halt cause 3 out of bounds and 4 in the kernel region (decisions D1, D11, D14). -/
def Obligations.FetchFaultHalts : Prop :=
  ∀ (s : State) (f : FatalFault), s.Running → s.FirstFault s.pc.toNat 2 f →
    ∃ t : State, applyEvent .cycle s = .next t ∧ (s.inbox = [] → step s = .next t) ∧ HaltedBy f s t ∧
      (∀ a : Nat, f = .outOfBoundsAccess a → t.haltCause.code = 3) ∧
      (∀ a : Nat, f = .privilegeViolationAt a → t.haltCause.code = 4)

/-- Before the first Reset no cycle, tick, key or framebuffer event has a step, a Load is refused with no
state change, and a halt request changes nothing (decision D29, log 10). -/
def Obligations.UninitializedAcceptsOnlyReset : Prop :=
  ∀ (s : State) (k : BitVec 16) (sel : LoadSelector), s.phase = .uninitialized →
    applyEvent .cycle s = .refused .uninitialized ∧
    applyEvent .tick s = .refused .uninitialized ∧
    applyEvent (.setKeys k) s = .refused .uninitialized ∧
    applyEvent .readFramebuffer s = .refused .uninitialized ∧
    (∃ t : State, applyEvent (.load sel) s = .next t ∧ SameExcept [.output] s t ∧
      t.output = Output.ofLoad .refused) ∧
    (∃ t : State, applyEvent .haltRequest s = .next t ∧ SameExcept [.output] s t)

/-- The boot-exit switch is taken exactly when `pc` is below 0x1000 or above 0x13FF, in Kernel mode and when
not halted: it goes to User mode at 0x200 and changes `mode`, `phase` and `pc` only; otherwise it changes
nothing. So a Kernel-mode cycle that does not fault ends with `pc` in the kernel range and the mode kept, or
in User mode at 0x200 (decision D13: the test is made at the end of the cycle). -/
def Obligations.KernelCycleEndsInRangeOrUser : Prop :=
  (∀ s : State, s.phase ≠ .halted → s.mode = .kernel →
    s.bootExit = if s.pc.toNat < 0x1000 ∨ 0x13FF < s.pc.toNat
      then { s with mode := .user, phase := .userRunning, pc := 0x200 } else s) ∧
  (∀ s : State, s.phase = .halted ∨ s.mode = .user → s.bootExit = s) ∧
  ∀ s t : State, s.Running → s.mode = .kernel →
    (applyEvent .cycle s = .next t ∨ (s.inbox = [] ∧ step s = .next t)) → t.phase ≠ .halted →
    (t.mode = .kernel ∧ t.phase = s.phase ∧ 0x1000 ≤ t.pc.toNat ∧ t.pc.toNat ≤ 0x13FF) ∨
    (t.mode = .user ∧ t.phase = .userRunning ∧ t.pc = 0x200)

/-- No event but Reset leaves User mode (decision D10: there is no elevation path). -/
def Obligations.UserModeIsPermanent : Prop :=
  ∀ s t : State, s.mode = .user → s.inbox.head? ≠ some .reset → step s = .next t → t.mode = .user

/-- A cycle in Halted is idle and changes nothing but the output, and no event but Reset leaves Halted or
changes its cause (decisions D23, D24, D29, D30). -/
def Obligations.HaltedIsTerminal : Prop :=
  (∀ s : State, s.phase = .halted →
    ∃ t : State, applyEvent .cycle s = .next t ∧ (s.inbox = [] → step s = .next t) ∧
      SameExcept [.output] s t ∧ t.output = Output.ofCycle .idle) ∧
  ∀ s t : State, s.phase = .halted → s.inbox.head? ≠ some .reset → step s = .next t →
    t.phase = .halted ∧ t.haltCause = s.haltCause ∧
    SameExcept [.dt, .st, .keys, .output, .inbox] s t

/-- The state after reset meets the invariant of R27, with the default and with any other parameters. -/
def Obligations.ResetMeetsInvariant : Prop :=
  State.reset.Inv ∧ ∀ p : Params, (State.resetWith p).Inv

/-- AN INVARIANT THAT EVERY STEP KEEPS, cycles and host events alike: `sp` at most 16, `pc` at most
0x1402, stack entries at most 0x1400, the phase fixes the mode and in KernelBoot the `pc` range, the halt
cause is None exactly when not halted, memory is canonical and inside the 5,120 bytes. -/
def Obligations.StepKeepsInvariant : Prop :=
  ∀ s t : State, s.Inv → step s = .next t → t.Inv

/-- Under the invariant a step never ends in a fault of the model, and is refused only before the first
Reset (log 7, log 10). -/
def Obligations.InvariantStepGoesOn : Prop :=
  ∀ s : State, s.Inv → s.phase ≠ .uninitialized → ∃ t : State, step s = .next t

/-- No step changes the parameters, the virtual disk among them. -/
def Obligations.ParametersAreFixed : Prop :=
  ∀ s t : State, step s = .next t → t.params = s.params

/-! ### Reset and the host events -/

/-- What Reset leaves in every piece of the spec's state, for every boot image (the code 0 None of the halt
cause is decision D1), and that `State.reset` is that state with the default parameters (logs 1, 2, 5). -/
def Obligations.ResetLeaves : Prop :=
  State.resetWith defaultParams = State.reset ∧
  ∀ s : State, ∃ t : State, applyEvent .reset s = .next t ∧
    (∀ r : Nibble, t.readV r = 0) ∧ t.regI = 0 ∧ t.pc = 0x1000 ∧
    (∀ (k : Nat) (h : k < 16), t.stack[k]'h = 0) ∧ t.sp = 0 ∧
    t.mode = .kernel ∧ t.phase = .kernelBoot ∧ t.haltCause.code = 0 ∧
    t.dt = 0 ∧ t.st = 0 ∧ t.keys = 0 ∧ (∀ k : Nat, t.fb.cell k = false) ∧
    (∀ a : Nat, a < 0x1400 →
      t.readByte a = if 0x1000 ≤ a then s.params.bootImage.getD (a - 0x1000) 0 else 0) ∧
    t.params = s.params

/-- Tick lowers each counter that is above zero by one and nothing else (accepted in Halted by decision D24). -/
def Obligations.TickCountsDown : Prop :=
  ∀ s : State, s.phase ≠ .uninitialized → ∃ t : State, applyEvent .tick s = .next t ∧
    t.dt.toNat = s.dt.toNat - 1 ∧ t.st.toNat = s.st.toNat - 1 ∧ SameExcept [.dt, .st, .output] s t

/-- SetKeys writes the key vector and nothing else; ReadFramebuffer gives the cells and changes nothing. -/
def Obligations.PortsTouchOnlyTheirField : Prop :=
  ∀ (s : State) (k : BitVec 16), s.phase ≠ .uninitialized →
    (∃ t : State, applyEvent (.setKeys k) s = .next t ∧ t.keys = k ∧ SameExcept [.keys, .output] s t) ∧
    (∃ t : State, applyEvent .readFramebuffer s = .next t ∧ t.output.report = .framebuffer s.fb ∧
      SameExcept [.output] s t)

/-- HaltRequest halts a running machine with cause 6 and changes nothing of a halted one (decisions D1, D30). -/
def Obligations.HaltRequestHalts : Prop :=
  ∀ s : State,
    (s.Running → ∃ t : State, applyEvent .haltRequest s = .next t ∧ t.phase = .halted ∧
      t.haltCause.code = 6 ∧ SameExcept [.phase, .haltCause, .output] s t) ∧
    (s.phase = .halted → ∃ t : State, applyEvent .haltRequest s = .next t ∧ SameExcept [.output] s t)

/-- A successful Load copies the entry's bytes to 0x200, sets `pc` there and writes nothing else (the
limit of 4,608 bytes is decision D22). An index from 0 to 3 selects its slot, and a name the entry that
bears it, with distinct names as premise (log 11). -/
def Obligations.LoadCopiesImage : Prop :=
  (∀ (s : State) (n : Nat) (h : n < 4), s.findEntry (.index n) = s.params.disk[n]'h) ∧
  (∀ (s : State) (nm : String) (j : Nat) (h : j < 4) (e : DiskEntry),
    s.params.disk[j]'h = some e → e.name = nm →
    (∀ (k : Nat) (hk : k < 4) (d : DiskEntry), s.params.disk[k]'hk = some d → d.name = nm → k = j) →
    s.findEntry (.name nm) = some e) ∧
  (∀ r : LoadResult, (Output.ofLoad r).report = .load r) ∧
  ∀ (s : State) (sel : LoadSelector) (e : DiskEntry), s.phase = .userRunning →
    s.findEntry sel = some e → e.bytes.length ≤ 4608 →
    ∃ t : State, applyEvent (.load sel) s = .next t ∧ t.output = Output.ofLoad .ok ∧ t.pc = 0x200 ∧
      (∀ k : Nat, k < e.bytes.length → t.readByte (0x200 + k) = e.bytes.getD k 0) ∧
      BytesExcept 0x200 e.bytes.length s t ∧ SameExcept [.mem, .pc, .output] s t

/-- A Load outside UserRunning, of an absent entry, or of more than 4,608 bytes changes nothing and
reports Refused, NotFound or TooLarge (decisions D22, D23). An index above 3 and a name that no entry bears
find no entry. -/
def Obligations.LoadFailureChangesNothing : Prop :=
  (∀ (s : State) (n : Nat), 3 < n → s.findEntry (.index n) = none) ∧
  (∀ (s : State) (nm : String),
    (∀ (k : Nat) (hk : k < 4) (d : DiskEntry), s.params.disk[k]'hk = some d → d.name ≠ nm) →
    s.findEntry (.name nm) = none) ∧
  ∀ (s : State) (sel : LoadSelector),
    (s.phase ≠ .userRunning → ∃ t : State, applyEvent (.load sel) s = .next t ∧
      t.output = Output.ofLoad .refused ∧ SameExcept [.output] s t) ∧
    (s.phase = .userRunning → s.findEntry sel = none → ∃ t : State, applyEvent (.load sel) s = .next t ∧
      t.output = Output.ofLoad .notFound ∧ SameExcept [.output] s t) ∧
    (∀ e : DiskEntry, s.phase = .userRunning → s.findEntry sel = some e → 4608 < e.bytes.length →
      ∃ t : State, applyEvent (.load sel) s = .next t ∧
        t.output = Output.ofLoad .tooLarge ∧ SameExcept [.output] s t)

/-! ### The check, and faults -/

/-- The address check: out of bounds from 0x1400 in both modes, a privilege violation in User mode from
0x1000 to 0x13FF, and nothing otherwise (the fault for the kernel region is decision D11). -/
def Obligations.AddressCheckByModeAndRange : Prop :=
  ∀ (s : State) (a : Nat),
    (0x1400 ≤ a → s.check a = some (.outOfBoundsAccess a)) ∧
    (0x1000 ≤ a → a < 0x1400 → s.mode = .user → s.check a = some (.privilegeViolationAt a)) ∧
    (a < 0x1400 → s.mode = .kernel → s.check a = none) ∧
    (a < 0x1000 → s.check a = none)

/-- The four instructions that access memory through `I` halt by the fault of their lowest failing
address, with nothing committed and halt cause 3 out of bounds, 4 in the kernel region (decisions D1, D11, D14, D15,
D18: addresses are not wrapped, clipped rows count). -/
def Obligations.AccessFaultsHalt : Prop :=
  ∀ (s : State) (x y n : Nibble) (f : FatalFault), s.dataAddr = s.regI.toNat ∧
    (s.FirstFault s.dataAddr n.toNat f → ∃ t : State, exec (.drw x y n) s = .next t ∧ HaltedBy f s t) ∧
    (s.FirstFault s.dataAddr 3 f → ∃ t : State, exec (.ldB x) s = .next t ∧ HaltedBy f s t) ∧
    (s.FirstFault s.dataAddr (x.toNat + 1) f →
      (∃ t : State, exec (.storeRegs x) s = .next t ∧ HaltedBy f s t) ∧
      (∃ t : State, exec (.loadRegs x) s = .next t ∧ HaltedBy f s t)) ∧
    (∀ t : State, HaltedBy f s t →
      (∀ a : Nat, f = .outOfBoundsAccess a → t.haltCause.code = 3) ∧
      (∀ a : Nat, f = .privilegeViolationAt a → t.haltCause.code = 4))

/-- Whatever instruction ends a running machine's cycle in Halted took a fatal fault and committed nothing
of the cycle (decision D14). -/
def Obligations.FaultCommitsNothing : Prop :=
  ∀ (i : Instr) (s t : State), s.Running → exec i s = .next t → t.phase = .halted →
    ∃ f : FatalFault, HaltedBy f s t

/-- An instruction that does not halt writes only the pieces of state the spec names for it, beside `pc`
and the output. Choices this rests on: `I` unchanged by LD [I], Vx and LD Vx, [I] (decision D21, log 36); the
extents of KRESET, KIORESET, KSHELL and KLOAD (decisions D5, D6, D7, D8, logs 21, 23, 24, 25); the keys
cleared by KIORESET (decision D25, log 44); the draw counter of RND, the model's own (log 4). -/
def Obligations.InstructionsWriteOnlyTheirParts : Prop :=
  ∀ (i : Instr) (s t : State), exec i s = .next t → t.phase ≠ .halted →
    SameExcept ([.pc, .output] ++ writtenParts i) s t

/-- No instruction writes `VF` but the six flag writers, those that name register 15, and the state reset. -/
def Obligations.OnlyFlagWritersChangeVF : Prop :=
  ∀ (i : Instr) (s t : State), exec i s = .next t → writesVF i = false → t.readV 0xF = s.readV 0xF

/-- A User-mode cycle leaves every byte from 0x1000 up as it was. -/
def Obligations.UserCycleKeepsKernelRegion : Prop :=
  ∀ s t : State, s.inbox = [] → s.mode = .user → step s = .next t →
    ∀ a : Nat, 0x1000 ≤ a → t.readByte a = s.readByte a

/-- A User-mode cycle learns nothing of the kernel region: from two states that differ only in bytes from
0x1000 up it goes to two states that differ only there. -/
def Obligations.UserCycleLearnsNothingOfKernel : Prop :=
  ∀ (s t : State) (m : Memory), s.inbox = [] → s.mode = .user →
    (∀ a : Nat, a < 0x1000 → m.read a = s.mem.read a) → step s = .next t →
    ∃ u : State, step { s with mem := m } = .next u ∧ SameExcept [.mem] t u ∧
      (∀ a : Nat, a < 0x1000 → u.readByte a = t.readByte a)

/-! ### Family 0 and the calls -/

/-- CLS, the word 00E0, clears every cell and nothing else. -/
def Obligations.ClsClearsFramebuffer : Prop :=
  decodeWord 0x00E0 = .cls ∧ ∀ s : State, ∃ t : State, exec .cls s = .next t ∧ (∀ k : Nat, t.fb.cell k = false) ∧
    SameExcept [.fb, .pc, .output] s t ∧ Completed s t

/-- RET with one to sixteen entries in use pops the top entry into `pc`; the stack itself is unchanged. -/
def Obligations.RetPops : Prop :=
  ∀ (s : State) (k : Nat) (h : k < 16), s.sp.toNat = k + 1 →
    ∃ t : State, exec .ret s = .next t ∧ t.sp.toNat = k ∧ t.pc = s.stack[k]'h ∧
      t.output = Output.ofCycle .ok ∧ SameExcept [.sp, .pc, .output] s t

/-- CALL with room pushes the address after the call and jumps to `nnn`; the other entries are unchanged. -/
def Obligations.CallPushes : Prop :=
  ∀ (s : State) (nnn : Addr12) (k : Nat) (h : k < 16), s.sp.toNat = k →
    ∃ t : State, exec (.call nnn) s = .next t ∧ t.sp.toNat = k + 1 ∧ t.stack[k]'h = s.pc + 2 ∧
      (∀ (j : Nat) (hj : j < 16), j ≠ k → t.stack[j]'hj = s.stack[j]'hj) ∧
      t.pc.toNat = nnn.toNat ∧ t.output = Output.ofCycle .ok ∧
      SameExcept [.stack, .sp, .pc, .output] s t

/-- A CALL on a full stack and a RET on an empty one halt with nothing committed and halt causes 1 and 2
(decisions D1, D14); with `sp` above 16, which no run reaches, both stop at the entry that does not exist
(log 7). -/
def Obligations.StackFaults : Prop :=
  ∀ (s : State) (nnn : Addr12),
    (s.sp = 16 → ∃ t : State, exec (.call nnn) s = .next t ∧ HaltedBy .stackOverflow s t ∧
      t.haltCause.code = 1) ∧
    (s.sp = 0 → ∃ t : State, exec .ret s = .next t ∧ HaltedBy .stackUnderflow s t ∧
      t.haltCause.code = 2) ∧
    (16 < s.sp.toNat → exec (.call nnn) s = .fault (.noStackEntry s.sp)) ∧
    (16 < s.sp.toNat → exec .ret s = .fault (.noStackEntry s.sp))

/-- Call and return: after a CALL, a RET in any state that has the same stack and `sp` again goes to the
instruction after the CALL and gives `sp` its value before it. -/
def Obligations.CallReturnRoundTrip : Prop :=
  ∀ (s t u : State) (nnn : Addr12), s.sp.toNat < 16 → exec (.call nnn) s = .next t →
    u.stack = t.stack → u.sp = t.sp →
    ∃ w : State, exec .ret u = .next w ∧ w.pc = s.pc + 2 ∧ w.sp = s.sp

/-- JP goes to `nnn`, JP V0 to `nnn + V[0]`, neither reduced; nothing else changes. -/
def Obligations.JumpTargets : Prop :=
  ∀ (s : State) (nnn : Addr12),
    (∃ t : State, exec (.jp nnn) s = .next t ∧ t.pc.toNat = nnn.toNat ∧
      t.output = Output.ofCycle .ok ∧ SameExcept [.pc, .output] s t) ∧
    (∃ t : State, exec (.jpV0 nnn) s = .next t ∧ t.pc.toNat = nnn.toNat + (s.readV 0).toNat ∧
      t.output = Output.ofCycle .ok ∧ SameExcept [.pc, .output] s t)

/-! ### Skips -/

/-- SE and SNE with an immediate, the words 3xnn and 4xnn, skip one instruction when the condition holds, and
change nothing else. -/
def Obligations.SkipImmediate : Prop :=
  ∀ (s : State) (x : Nibble) (nn : Byte),
    decodeWord (0x3#4 ++ x ++ nn) = .seImm x nn ∧ decodeWord (0x4#4 ++ x ++ nn) = .sneImm x nn ∧
    (∃ t : State, exec (.seImm x nn) s = .next t ∧
      t.pc = (if s.readV x = nn then s.pc + 4 else s.pc + 2) ∧ t.output = Output.ofCycle .ok ∧
      SameExcept [.pc, .output] s t) ∧
    (∃ t : State, exec (.sneImm x nn) s = .next t ∧
      t.pc = (if s.readV x ≠ nn then s.pc + 4 else s.pc + 2) ∧ t.output = Output.ofCycle .ok ∧
      SameExcept [.pc, .output] s t)

/-- SE and SNE between registers skip one instruction when the condition holds, and change nothing else. -/
def Obligations.SkipRegister : Prop :=
  ∀ (s : State) (x y : Nibble),
    (∃ t : State, exec (.seReg x y) s = .next t ∧
      t.pc = (if s.readV x = s.readV y then s.pc + 4 else s.pc + 2) ∧ t.output = Output.ofCycle .ok ∧
      SameExcept [.pc, .output] s t) ∧
    (∃ t : State, exec (.sneReg x y) s = .next t ∧
      t.pc = (if s.readV x ≠ s.readV y then s.pc + 4 else s.pc + 2) ∧ t.output = Output.ofCycle .ok ∧
      SameExcept [.pc, .output] s t)

/-- SKP skips when key `V[x]` is down and SKNP when it is up, for a key number up to 15. -/
def Obligations.SkipOnKey : Prop :=
  ∀ (s : State) (x : Nibble), (s.readV x).toNat ≤ 15 →
    (∃ t : State, exec (.skp x) s = .next t ∧
      t.pc = (if s.keys.getLsbD (s.readV x).toNat = true then s.pc + 4 else s.pc + 2) ∧
      t.output = Output.ofCycle .ok ∧ SameExcept [.pc, .output] s t) ∧
    (∃ t : State, exec (.sknp x) s = .next t ∧
      t.pc = (if s.keys.getLsbD (s.readV x).toNat = false then s.pc + 4 else s.pc + 2) ∧
      t.output = Output.ofCycle .ok ∧ SameExcept [.pc, .output] s t)

/-- SKP and SKNP with a key number above 15 halt with halt cause 5, nothing committed (decisions D1, D14, D19). -/
def Obligations.KeyNumberAboveFifteenHalts : Prop :=
  ∀ (s : State) (x : Nibble), 15 < (s.readV x).toNat →
    (∃ t : State, exec (.skp x) s = .next t ∧ HaltedBy (.keyIndexOutOfRange (s.readV x)) s t ∧
      t.haltCause.code = 5) ∧
    (∃ t : State, exec (.sknp x) s = .next t ∧ HaltedBy (.keyIndexOutOfRange (s.readV x)) s t ∧
      t.haltCause.code = 5)

/-! ### Immediates -/

/-- LD Vx, nn, the word 6xnn, writes `nn`, for every `x`, 15 included. -/
def Obligations.LoadImmediate : Prop :=
  ∀ (s : State) (x : Nibble) (nn : Byte), decodeWord (0x6#4 ++ x ++ nn) = .ldImm x nn ∧
    ∃ t : State, exec (.ldImm x nn) s = .next t ∧ SetsRegister x nn s t

/-- ADD Vx, nn, the word 7xnn, adds modulo 256 and writes no flag. -/
def Obligations.AddImmediateWraps : Prop :=
  ∀ (s : State) (x : Nibble) (nn : Byte), decodeWord (0x7#4 ++ x ++ nn) = .addImm x nn ∧
    ∃ (t : State) (b : Byte), exec (.addImm x nn) s = .next t ∧
      b.toNat = ((s.readV x).toNat + nn.toNat) % 256 ∧ SetsRegister x b s t

/-- LD I, nnn, the word Annn, writes `nnn`, zero-extended; LD F, Vx, the word Fx29 with `x` not 0, sets `I` to
0x050 + V[x]*5, the whole register. -/
def Obligations.LoadIndexAndGlyphAddress : Prop :=
  ∀ (s : State) (nnn : Addr12) (x : Nibble),
    decodeWord (0xA#4 ++ nnn) = .ldI nnn ∧ (x ≠ 0 → decodeWord (0xF#4 ++ x ++ 0x29#8) = .ldF x) ∧
    (∃ t : State, exec (.ldI nnn) s = .next t ∧ t.regI.toNat = nnn.toNat ∧
      SameExcept [.regI, .pc, .output] s t ∧ Completed s t) ∧
    (∃ t : State, exec (.ldF x) s = .next t ∧ t.regI.toNat = 0x50 + (s.readV x).toNat * 5 ∧
      SameExcept [.regI, .pc, .output] s t ∧ Completed s t)

/-- RND Vx, nn writes the next free byte under the mask, whatever that byte is, so no bit outside `nn` is
set; the draw is used up (log 4: the free value and its counter are the model's). -/
def Obligations.RandomUnderMask : Prop :=
  ∀ (s : State) (x : Nibble) (nn : Byte), ∃ t : State, exec (.rnd x nn) s = .next t ∧
    t.readV x = Config.randomByte s.draws &&& nn ∧ t.readV x &&& ~~~nn = 0 ∧ t.draws = s.draws + 1 ∧
    RegsExcept x s t ∧ SameExcept [.v, .draws, .pc, .output] s t ∧ Completed s t

/-! ### The ALU -/

/-- LD, OR, AND and XOR between registers, the words 8xy0 to 8xy3, write `V[x]` and leave `VF` alone unless it
is `V[x]`. -/
def Obligations.MoveAndLogic : Prop :=
  ∀ (s : State) (x y : Nibble),
    decodeWord (0x8#4 ++ x ++ y ++ 0x0#4) = .ldReg x y ∧ decodeWord (0x8#4 ++ x ++ y ++ 0x1#4) = .orReg x y ∧
    decodeWord (0x8#4 ++ x ++ y ++ 0x2#4) = .andReg x y ∧ decodeWord (0x8#4 ++ x ++ y ++ 0x3#4) = .xorReg x y ∧
    (∃ t : State, exec (.ldReg x y) s = .next t ∧ SetsRegister x (s.readV y) s t) ∧
    (∃ t : State, exec (.orReg x y) s = .next t ∧ SetsRegister x (s.readV x ||| s.readV y) s t) ∧
    (∃ t : State, exec (.andReg x y) s = .next t ∧ SetsRegister x (s.readV x &&& s.readV y) s t) ∧
    (∃ t : State, exec (.xorReg x y) s = .next t ∧ SetsRegister x (s.readV x ^^^ s.readV y) s t)

/-- ADD, SUB and SUBN between registers: the result modulo 256; `VF` the carry of ADD, and 1 exactly when
there is no borrow for SUB and SUBN (with `x = 15` the flag stands: R82, decision D17; the 0 of SUBN is
decision D33). -/
def Obligations.AddSubtractSetFlag : Prop :=
  ∀ (s : State) (x y : Nibble),
    (∃ (t : State) (b f : Byte), exec (.addReg x y) s = .next t ∧
      b.toNat = ((s.readV x).toNat + (s.readV y).toNat) % 256 ∧
      f = (if 255 < (s.readV x).toNat + (s.readV y).toNat then 1 else 0) ∧
      SetsRegisterAndFlag x b f s t) ∧
    (∃ (t : State) (b f : Byte), exec (.subReg x y) s = .next t ∧
      b.toNat = ((s.readV x).toNat + 256 - (s.readV y).toNat) % 256 ∧
      f = (if (s.readV y).toNat ≤ (s.readV x).toNat then 1 else 0) ∧ SetsRegisterAndFlag x b f s t) ∧
    (∃ (t : State) (b f : Byte), exec (.subn x y) s = .next t ∧
      b.toNat = ((s.readV y).toNat + 256 - (s.readV x).toNat) % 256 ∧
      f = (if (s.readV x).toNat ≤ (s.readV y).toNat then 1 else 0) ∧ SetsRegisterAndFlag x b f s t)

/-- SHR and SHL shift `V[x]` by one, `VF` the bit shifted out, `y` ignored (decisions D16, D17). -/
def Obligations.ShiftsSetShiftedBit : Prop :=
  ∀ (s : State) (x y : Nibble),
    (∃ (t : State) (b f : Byte), exec (.shr x y) s = .next t ∧ b.toNat = (s.readV x).toNat / 2 ∧
      f.toNat = (s.readV x).toNat % 2 ∧ SetsRegisterAndFlag x b f s t) ∧
    (∃ (t : State) (b f : Byte), exec (.shl x y) s = .next t ∧ b.toNat = (s.readV x).toNat * 2 % 256 ∧
      f.toNat = (s.readV x).toNat / 128 ∧ SetsRegisterAndFlag x b f s t)

/-! ### Drawing -/

/-- DRW: every cell is XORed with the picture of the sprite, whose row `r` is the byte at `I + r`, clipped at
the edges, and `VF` tells whether a drawn pixel hit a set cell (decision D18: bit 7 leftmost, `VF` cleared
without a collision). -/
def Obligations.DrawXorsClippedSprite : Prop :=
  ∀ (s : State) (x y n : Nibble), s.Accessible s.dataAddr n.toNat →
    s.dataAddr = s.regI.toNat ∧
    ∃ t : State, exec (.drw x y n) s = .next t ∧
      (∀ k : Nat, k < 2048 → t.fb.cell k = (s.fb.cell k ^^ s.spriteCovers x y n k)) ∧
      ((t.readV 0xF = 1 ∧ ∃ k : Nat, k < 2048 ∧ s.fb.cell k = true ∧ s.spriteCovers x y n k = true) ∨
       (t.readV 0xF = 0 ∧ ∀ k : Nat, k < 2048 → s.fb.cell k = true → s.spriteCovers x y n k = false)) ∧
      RegsExcept 0xF s t ∧ SameExcept [.v, .fb, .pc, .output] s t ∧ Completed s t

/-- Drawing the same sprite twice at the same place restores every cell, and the second draw reports a
collision exactly when a cell the sprite covers was clear before the first (log 20: the spec's remark in
R83 says less). -/
def Obligations.DrawTwiceRestores : Prop :=
  ∀ (s t : State) (x y n : Nibble), x ≠ 0xF → y ≠ 0xF → s.Accessible s.dataAddr n.toNat →
    exec (.drw x y n) s = .next t →
    ∃ u : State, exec (.drw x y n) t = .next u ∧ (∀ k : Nat, k < 2048 → u.fb.cell k = s.fb.cell k) ∧
      (u.readV 0xF = 1 ↔ ∃ k : Nat, k < 2048 ∧ s.fb.cell k = false ∧ s.spriteCovers x y n k = true)

/-! ### Family F, user instructions -/

/-- LD Vx, DT, the word Fx07, reads the delay timer; LD DT, Vx and LD ST, Vx, the words Fx15 and Fx18, write the
timers; nothing else changes. -/
def Obligations.TimerMoves : Prop :=
  ∀ (s : State) (x : Nibble),
    (x ≠ 0 → decodeWord (0xF#4 ++ x ++ 0x07#8) = .ldVxDt x ∧ decodeWord (0xF#4 ++ x ++ 0x15#8) = .ldDtVx x ∧
      decodeWord (0xF#4 ++ x ++ 0x18#8) = .ldStVx x) ∧
    (∃ t : State, exec (.ldVxDt x) s = .next t ∧ SetsRegister x s.dt s t) ∧
    (∃ t : State, exec (.ldDtVx x) s = .next t ∧ t.dt = s.readV x ∧
      SameExcept [.dt, .pc, .output] s t ∧ Completed s t) ∧
    (∃ t : State, exec (.ldStVx x) s = .next t ∧ t.st = s.readV x ∧
      SameExcept [.st, .pc, .output] s t ∧ Completed s t)

/-- LD Vx, K with no key down changes nothing, not even `pc`, and reports Repeat; with a key down it stores
the index of a pressed key, and with the default KEY_PICK, no key preferred, the lowest (decision D20, log 3). -/
def Obligations.KeyWait : Prop :=
  ∀ (s : State) (x : Nibble),
    ((∀ k : Nat, k < 16 → s.keys.getLsbD k = false) →
      ∃ t : State, exec (.ldVxK x) s = .next t ∧ t.output = Output.ofCycle .repeat_ ∧
        SameExcept [.output] s t) ∧
    (∀ j : Nat, j < 16 → s.keys.getLsbD j = true →
      ∃ (t : State) (k : Nat), exec (.ldVxK x) s = .next t ∧ k < 16 ∧ s.keys.getLsbD k = true ∧
        SetsRegister x (BitVec.ofNat 8 k) s t ∧
        (s.params.keyFirst = [] → ∀ i : Nat, i < k → s.keys.getLsbD i = false))

/-- ADD I, Vx adds modulo 65,536 and writes no flag (decision D15). -/
def Obligations.AddIndexWraps : Prop :=
  ∀ (s : State) (x : Nibble), ∃ t : State, exec (.addI x) s = .next t ∧
    t.regI.toNat = (s.regI.toNat + (s.readV x).toNat) % 65536 ∧
    SameExcept [.regI, .pc, .output] s t ∧ Completed s t

/-- LD B, Vx stores the three decimal digits at `I`, `I+1`, `I+2` and no other byte. -/
def Obligations.BcdStoresDigits : Prop :=
  ∀ (s : State) (x : Nibble), s.Accessible s.dataAddr 3 →
    s.dataAddr = s.regI.toNat ∧
    ∃ t : State, exec (.ldB x) s = .next t ∧
      (t.readByte s.dataAddr).toNat = (s.readV x).toNat / 100 ∧
      (t.readByte (s.dataAddr + 1)).toNat = (s.readV x).toNat / 10 % 10 ∧
      (t.readByte (s.dataAddr + 2)).toNat = (s.readV x).toNat % 10 ∧
      BytesExcept s.dataAddr 3 s t ∧ SameExcept [.mem, .pc, .output] s t ∧ Completed s t

/-- LD [I], Vx stores `V[0]` to `V[x]` at `I` and up, no other byte, and leaves `I` alone (decision D21). -/
def Obligations.StoreRegisterRun : Prop :=
  ∀ (s : State) (x : Nibble), s.Accessible s.dataAddr (x.toNat + 1) →
    s.dataAddr = s.regI.toNat ∧
    ∃ t : State, exec (.storeRegs x) s = .next t ∧
      (∀ r : Nibble, r.toNat ≤ x.toNat → t.readByte (s.dataAddr + r.toNat) = s.readV r) ∧
      BytesExcept s.dataAddr (x.toNat + 1) s t ∧ SameExcept [.mem, .pc, .output] s t ∧ Completed s t

/-- LD Vx, [I] loads `V[0]` to `V[x]` from `I` and up, no other register, and leaves `I` and memory alone
(decision D21). -/
def Obligations.LoadRegisterRun : Prop :=
  ∀ (s : State) (x : Nibble), s.Accessible s.dataAddr (x.toNat + 1) →
    s.dataAddr = s.regI.toNat ∧
    ∃ t : State, exec (.loadRegs x) s = .next t ∧
      (∀ r : Nibble, r.toNat ≤ x.toNat → t.readV r = s.readByte (s.dataAddr + r.toNat)) ∧
      (∀ r : Nibble, x.toNat < r.toNat → t.readV r = s.readV r) ∧
      SameExcept [.v, .pc, .output] s t ∧ Completed s t

/-! ### Syscalls and unknown opcodes -/

/-- KRESET in Kernel mode: registers, `I`, stack and `sp` zero, memory below 0x1000 zero but for the font
at 0x050, the kernel region and everything else kept (decisions D4, D5). -/
def Obligations.KernelResetExtent : Prop :=
  ∀ s : State, s.mode = .kernel → ∃ t : State, exec .kreset s = .next t ∧
    (∀ r : Nibble, t.readV r = 0) ∧ t.regI = 0 ∧ (∀ (k : Nat) (h : k < 16), t.stack[k]'h = 0) ∧ t.sp = 0 ∧
    (∀ (j : Nat) (h : j < 80), t.readByte (0x50 + j) = s.params.fontTable[j]'h) ∧
    (∀ a : Nat, a < 0x50 ∨ (0xA0 ≤ a ∧ a < 0x1000) → t.readByte a = 0) ∧
    (∀ a : Nat, 0x1000 ≤ a → t.readByte a = s.readByte a) ∧
    SameExcept [.v, .regI, .stack, .sp, .mem, .pc, .output] s t ∧ Completed s t

/-- KIORESET in Kernel mode clears framebuffer, timers and keys and nothing else (decision D6); KSHELL
emits ShellInit, which no other outcome carries, and changes no state of the block (decision D7, log 8 for the
output). -/
def Obligations.IoResetAndShell : Prop :=
  ∀ s : State, s.mode = .kernel →
    (∀ o : CycleOutcome, (Output.ofCycle o).report = .cycle o ∧ (Output.ofCycle o).shellInit = false) ∧
    (∃ t : State, exec .kioreset s = .next t ∧ (∀ k : Nat, t.fb.cell k = false) ∧ t.dt = 0 ∧ t.st = 0 ∧
      t.keys = 0 ∧ SameExcept [.fb, .dt, .st, .keys, .pc, .output] s t ∧ Completed s t) ∧
    (∃ t : State, exec .kshell s = .next t ∧ t.pc = s.pc + 2 ∧ t.output.shellInit = true ∧
      t.output.report = .cycle .ok ∧ SameExcept [.pc, .output] s t)

/-- KLOAD in Kernel mode with a populated slot `V[0]` of at most 4,608 bytes copies the image to 0x200 and
sets `pc` there; an absent or too large entry makes it a no-op with its diagnostic, and a slot above 3 is
absent (decisions D8, D22). -/
def Obligations.KernelLoad : Prop :=
  (∀ (s : State) (n : Nat) (h : n < 4), s.diskEntry n = s.params.disk[n]'h) ∧
  (∀ (s : State) (n : Nat), 3 < n → s.diskEntry n = none) ∧
  ∀ s : State, s.mode = .kernel →
    (∀ e : DiskEntry, s.diskEntry (s.readV 0).toNat = some e → e.bytes.length ≤ 4608 →
      ∃ t : State, exec .kload s = .next t ∧ t.pc = 0x200 ∧ t.output = Output.ofCycle .ok ∧
        (∀ k : Nat, k < e.bytes.length → t.readByte (0x200 + k) = e.bytes.getD k 0) ∧
        BytesExcept 0x200 e.bytes.length s t ∧ SameExcept [.mem, .pc, .output] s t) ∧
    (s.diskEntry (s.readV 0).toNat = none → ∃ t : State, exec .kload s = .next t ∧ t.pc = s.pc + 2 ∧
      t.output = Output.ofCycle (.diag (.diskEntryNotFound (s.readV 0))) ∧
      SameExcept [.pc, .output] s t) ∧
    (∀ e : DiskEntry, s.diskEntry (s.readV 0).toNat = some e → 4608 < e.bytes.length →
      ∃ t : State, exec .kload s = .next t ∧ t.pc = s.pc + 2 ∧
        t.output = Output.ofCycle (.diag (.loadTooLarge (s.readV 0))) ∧ SameExcept [.pc, .output] s t)

/-- KSYS nn with an undefined id in Kernel mode is a no-op with a diagnostic (decision D28). -/
def Obligations.UndefinedSyscallIsNoOp : Prop :=
  ∀ (s : State) (nn : Byte), s.mode = .kernel → ∃ t : State, exec (.ksys nn) s = .next t ∧
    t.pc = s.pc + 2 ∧
    t.output = Output.ofCycle (.diag (.unknownOpcode (BitVec.ofNat 16 (0xF000 + nn.toNat)) s.pc)) ∧
    SameExcept [.pc, .output] s t

/-- Every syscall word in User mode halts with PrivilegeViolation, halt cause 4, nothing committed
(decisions D1, D9, D14). -/
def Obligations.UserSyscallHalts : Prop :=
  ∀ (s : State) (nn : Byte), s.mode = .user →
    (∃ t : State, exec .kreset s = .next t ∧ HaltedBy (.privilegeViolationWord 0xF000) s t ∧
      t.haltCause.code = 4) ∧
    (∃ t : State, exec .kioreset s = .next t ∧ HaltedBy (.privilegeViolationWord 0xF004) s t ∧
      t.haltCause.code = 4) ∧
    (∃ t : State, exec .kshell s = .next t ∧ HaltedBy (.privilegeViolationWord 0xF006) s t ∧
      t.haltCause.code = 4) ∧
    (∃ t : State, exec .kload s = .next t ∧ HaltedBy (.privilegeViolationWord 0xF008) s t ∧
      t.haltCause.code = 4) ∧
    (∃ t : State, exec (.ksys nn) s = .next t ∧
      HaltedBy (.privilegeViolationWord (BitVec.ofNat 16 (0xF000 + nn.toNat))) s t ∧
      t.haltCause.code = 4)

/-- An unknown opcode, a word of no row of the table such as 0000, is a no-op: `pc` is advanced by two, the
diagnostic names the word and its address, and nothing else changes. -/
def Obligations.UnknownIsNoOp : Prop :=
  isKnown 0 = false ∧
  ∀ (s : State) (op : Word), (isKnown op = false → decodeWord op = .unknown op) ∧
    ∃ t : State, exec (.unknown op) s = .next t ∧ t.pc = s.pc + 2 ∧
    t.output = Output.ofCycle (.diag (.unknownOpcode op s.pc)) ∧ SameExcept [.pc, .output] s t
end

