-- ==== Sys2Proof/Laws/Encoding.lean ====
section
/-! SUPPORT. The fields of an encoded word, and what the masks of the opcode table keep of it
(spec 30_encoding.md R46, R47, R58). -/

namespace Sys2Proof

/-! ### Slices of a concatenation -/

theorem extractLsb'_append_low {n m : Nat} (a : BitVec n) (b : BitVec m) (k l : Nat) (h : k + l ≤ m) :
    (a ++ b).extractLsb' k l = b.extractLsb' k l := by
  apply BitVec.eq_of_getLsbD_eq
  intro i hi
  simp [BitVec.getLsbD_append, hi]
  omega

theorem extractLsb'_append_high {n m : Nat} (a : BitVec n) (b : BitVec m) (k l : Nat) :
    (a ++ b).extractLsb' (m + k) l = a.extractLsb' k l := by
  apply BitVec.eq_of_getLsbD_eq
  intro i hi
  have h1 : ¬ m + k + i < m := by omega
  have h2 : m + k + i - m = k + i := by omega
  simp [BitVec.getLsbD_append, hi, h1, h2]

theorem extractLsb'_whole {n : Nat} (a : BitVec n) : a.extractLsb' 0 n = a := by
  apply BitVec.eq_of_getLsbD_eq
  intro i hi
  simp [hi]

/-! ### Format NNN -/

theorem fieldFamily_nnn (f : Nibble) (nnn : Addr12) : fieldFamily (f ++ nnn) = f :=
  (extractLsb'_append_high f nnn 0 4).trans (extractLsb'_whole f)

theorem fieldNNN_nnn (f : Nibble) (nnn : Addr12) : fieldNNN (f ++ nnn) = nnn :=
  (extractLsb'_append_low f nnn 0 12 (by omega)).trans (extractLsb'_whole nnn)

theorem mask_nnn (f : Nibble) (nnn : Addr12) : (f ++ nnn : BitVec 16) &&& 0xF000#16 = f ++ 0#12 := by
  have h : (0xF000#16 : BitVec (4 + 12)) = 0xF#4 ++ 0#12 := by decide
  have hf : f &&& 0xF#4 = f := BitVec.and_allOnes (w := 4)
  rw [h, BitVec.and_append, hf, BitVec.and_zero]

/-! ### Formats XNN, XSS and KSS -/

theorem fieldFamily_xnn (f x : Nibble) (nn : Byte) : fieldFamily (f ++ x ++ nn) = f :=
  (extractLsb'_append_high (f ++ x) nn 4 4).trans
    ((extractLsb'_append_high f x 0 4).trans (extractLsb'_whole f))

theorem fieldX_xnn (f x : Nibble) (nn : Byte) : fieldX (f ++ x ++ nn) = x :=
  (extractLsb'_append_high (f ++ x) nn 0 4).trans
    ((extractLsb'_append_low f x 0 4 (by omega)).trans (extractLsb'_whole x))

theorem fieldNN_xnn (f x : Nibble) (nn : Byte) : fieldNN (f ++ x ++ nn) = nn :=
  (extractLsb'_append_low (f ++ x) nn 0 8 (by omega)).trans (extractLsb'_whole nn)

theorem mask_xnn (f x : Nibble) (nn : Byte) :
    (f ++ x ++ nn : BitVec 16) &&& 0xF000#16 = f ++ 0#4 ++ 0#8 := by
  have h : (0xF000#16 : BitVec (4 + 4 + 8)) = 0xF#4 ++ 0#4 ++ 0#8 := by decide
  have hf : f &&& 0xF#4 = f := BitVec.and_allOnes (w := 4)
  rw [h, BitVec.and_append, BitVec.and_append, hf, BitVec.and_zero, BitVec.and_zero]

theorem mask_xss (f x : Nibble) (nn : Byte) :
    (f ++ x ++ nn : BitVec 16) &&& 0xF0FF#16 = f ++ 0#4 ++ nn := by
  have h : (0xF0FF#16 : BitVec (4 + 4 + 8)) = 0xF#4 ++ 0#4 ++ 0xFF#8 := by decide
  have hf : f &&& 0xF#4 = f := BitVec.and_allOnes (w := 4)
  have hn : nn &&& 0xFF#8 = nn := BitVec.and_allOnes (w := 8)
  rw [h, BitVec.and_append, BitVec.and_append, hf, hn, BitVec.and_zero]

/-! ### Format XYN -/

theorem fieldFamily_xyn (f x y n : Nibble) : fieldFamily (f ++ x ++ y ++ n) = f :=
  (extractLsb'_append_high (f ++ x ++ y) n 8 4).trans
    ((extractLsb'_append_high (f ++ x) y 4 4).trans
      ((extractLsb'_append_high f x 0 4).trans (extractLsb'_whole f)))

theorem fieldX_xyn (f x y n : Nibble) : fieldX (f ++ x ++ y ++ n) = x :=
  (extractLsb'_append_high (f ++ x ++ y) n 4 4).trans
    ((extractLsb'_append_high (f ++ x) y 0 4).trans
      ((extractLsb'_append_low f x 0 4 (by omega)).trans (extractLsb'_whole x)))

theorem fieldY_xyn (f x y n : Nibble) : fieldY (f ++ x ++ y ++ n) = y :=
  (extractLsb'_append_high (f ++ x ++ y) n 0 4).trans
    ((extractLsb'_append_low (f ++ x) y 0 4 (by omega)).trans (extractLsb'_whole y))

theorem fieldN_xyn (f x y n : Nibble) : fieldN (f ++ x ++ y ++ n) = n :=
  (extractLsb'_append_low (f ++ x ++ y) n 0 4 (by omega)).trans (extractLsb'_whole n)

theorem mask_xyn (f x y n : Nibble) :
    (f ++ x ++ y ++ n : BitVec 16) &&& 0xF00F#16 = f ++ 0#4 ++ 0#4 ++ n := by
  have h : (0xF00F#16 : BitVec (4 + 4 + 4 + 4)) = 0xF#4 ++ 0#4 ++ 0#4 ++ 0xF#4 := by decide
  have hf : ∀ a : Nibble, a &&& 0xF#4 = a := fun a => BitVec.and_allOnes (w := 4)
  rw [h, BitVec.and_append, BitVec.and_append, BitVec.and_append, hf, hf, BitVec.and_zero, BitVec.and_zero]

theorem mask_drw (f x y n : Nibble) :
    (f ++ x ++ y ++ n : BitVec 16) &&& 0xF000#16 = f ++ 0#4 ++ 0#4 ++ 0#4 := by
  have h : (0xF000#16 : BitVec (4 + 4 + 4 + 4)) = 0xF#4 ++ 0#4 ++ 0#4 ++ 0#4 := by decide
  have hf : f &&& 0xF#4 = f := BitVec.and_allOnes (w := 4)
  rw [h, BitVec.and_append, BitVec.and_append, BitVec.and_append, hf, BitVec.and_zero, BitVec.and_zero,
    BitVec.and_zero]

/-! ### Syscall words -/

theorem fieldNN_ksys (nn : Byte) : fieldNN (0xF0#8 ++ nn) = nn :=
  (extractLsb'_append_low 0xF0#8 nn 0 8 (by omega)).trans (extractLsb'_whole nn)

theorem fieldX_ksys (nn : Byte) : fieldX (0xF0#8 ++ nn) = 0 :=
  (extractLsb'_append_high 0xF0#8 nn 0 4).trans (by decide)

theorem fieldFamily_ksys (nn : Byte) : fieldFamily (0xF0#8 ++ nn) = 0xF :=
  (extractLsb'_append_high 0xF0#8 nn 4 4).trans (by decide)

theorem mask_ksys (nn : Byte) : (0xF0#8 ++ nn : BitVec 16) &&& 0xFF00#16 = 0xF0#8 ++ 0#8 := by
  have h : (0xFF00#16 : BitVec (8 + 8)) = 0xFF#8 ++ 0#8 := by decide
  have hf : (0xF0#8) &&& 0xFF#8 = 0xF0#8 := by decide
  rw [h, BitVec.and_append, hf, BitVec.and_zero]

/-! ### Bytes of a word -/

theorem toNat_joinBytes (hi lo : Byte) : (joinBytes hi lo).toNat = hi.toNat * 256 + lo.toNat := by
  have e : (joinBytes hi lo).toNat = hi.toNat <<< 8 ||| lo.toNat := BitVec.toNat_append hi lo
  rw [e, ← Nat.shiftLeft_add_eq_or_of_lt lo.isLt, Nat.shiftLeft_eq]

theorem joinBytes_high_low (op : Word) : joinBytes (highByte op) (lowByte op) = op := by
  apply BitVec.eq_of_getLsbD_eq
  intro i hi
  unfold joinBytes highByte lowByte
  simp only [BitVec.getLsbD_append, BitVec.getLsbD_extractLsb']
  by_cases h : i < 8
  · simp [h]
  · have h8 : i - 8 < 8 := by omega
    have he : 8 + (i - 8) = i := by omega
    simp [h, h8, he]

theorem highByte_joinBytes (hi lo : Byte) : highByte (joinBytes hi lo) = hi :=
  (extractLsb'_append_high hi lo 0 8).trans (extractLsb'_whole hi)

theorem lowByte_joinBytes (hi lo : Byte) : lowByte (joinBytes hi lo) = lo :=
  (extractLsb'_append_low hi lo 0 8 (by omega)).trans (extractLsb'_whole lo)

end Sys2Proof
end

