-- ==== Sys2Proof/Laws/Memory.lean ====
section
/-! SUPPORT. The laws of memory: what a byte reads after each memory operation, and that each keeps the
canonical form. -/

namespace Sys2Proof.Machine

/-! ### Reads -/

theorem Memory.unlisted_low (a : Nat) (h : a < kernelBase) : Memory.unlisted a = 0 := by
  simp [Memory.unlisted, Nat.not_le.mpr h]

theorem Memory.read_erase (m : Memory) (a b : Nat) :
    (m.erase a).read b = if b = a then Memory.unlisted b else m.read b := by
  induction m with
  | nil => simp [Memory.erase, Memory.read]
  | cons c m ih =>
    obtain ⟨d, u⟩ := c
    unfold Memory.erase at ih ⊢
    by_cases hd : d = a
    · subst hd
      by_cases hb : b = d <;> simp_all [Memory.read]
    · by_cases hb : b = d
      · subst hb; simp [Memory.read, hd]
      · simp [Memory.read, hd, hb, ih]

theorem Memory.read_insert (m : Memory) (a b : Nat) (v : Byte) (h : ∀ c ∈ m, c.1 ≠ a) :
    (m.insert a v).read b = if b = a then v else m.read b := by
  induction m with
  | nil => simp [Memory.insert, Memory.read]
  | cons c m ih =>
    obtain ⟨d, u⟩ := c
    have hd : d ≠ a := h (d, u) (by simp)
    have hm : ∀ c ∈ m, c.1 ≠ a := fun c hc => h c (by simp [hc])
    unfold Memory.insert
    split
    · simp [Memory.read]
    · by_cases hb : b = d
      · subst hb; simp [Memory.read, hd]
      · simp [Memory.read, hb, ih hm]

theorem Memory.erase_ne (m : Memory) (a : Nat) : ∀ c ∈ m.erase a, c.1 ≠ a := by
  intro c hc
  simpa [Memory.erase] using (List.mem_filter.mp hc).2

/-- A read after a write: the byte written at its address, every other byte as before. -/
theorem Memory.read_write (m : Memory) (a b : Nat) (v : Byte) :
    (m.write a v).read b = if b = a then v else m.read b := by
  unfold Memory.write
  split
  · next hv => by_cases hb : b = a <;> simp [Memory.read_erase, hb, hv]
  · rw [Memory.read_insert _ _ _ _ (Memory.erase_ne m a)]
    by_cases hb : b = a <;> simp [Memory.read_erase, hb]

/-- A read after consecutive writes: the byte of the list inside the run, every other byte as before. -/
theorem Memory.read_writeBytes (bs : List Byte) : ∀ (m : Memory) (a b : Nat),
    (m.writeBytes a bs).read b = if a ≤ b ∧ b < a + bs.length then bs.getD (b - a) 0 else m.read b := by
  induction bs with
  | nil => intro m a b; rw [if_neg (by simp only [List.length_nil]; omega)]; rfl
  | cons c bs ih =>
    intro m a b
    rw [Memory.writeBytes, ih, Memory.read_write]
    by_cases hb : b = a
    · subst hb; rw [if_neg (by omega)]; simp
    · by_cases h : a + 1 ≤ b ∧ b < a + 1 + bs.length
      · have h' : a ≤ b ∧ b < a + (c :: bs).length := by simp; omega
        rw [if_pos h, if_pos h']
        obtain ⟨k, rfl⟩ : ∃ k, b = a + 1 + k := ⟨b - (a + 1), by omega⟩
        rw [show a + 1 + k - (a + 1) = k by omega, show a + 1 + k - a = k + 1 by omega]
        simp
      · have h' : ¬(a ≤ b ∧ b < a + (c :: bs).length) := by simp; omega
        rw [if_neg h, if_neg h', if_neg hb]

theorem Memory.read_clearLow (m : Memory) (b : Nat) :
    m.clearLow.read b = if b < kernelBase then 0 else m.read b := by
  induction m with
  | nil =>
    by_cases h : b < kernelBase
    · simp [Memory.clearLow, Memory.read, h, Memory.unlisted_low]
    · simp [Memory.clearLow, Memory.read, h]
  | cons c m ih =>
    obtain ⟨d, u⟩ := c
    unfold Memory.clearLow at ih ⊢
    by_cases hd : kernelBase ≤ d
    · by_cases hb : b = d
      · subst hb; simp [Memory.read, hd, Nat.not_lt.mpr hd]
      · simp [Memory.read, hd, hb, ih]
    · by_cases hb : b = d
      · subst hb; simp [hd, ih, Nat.lt_of_not_le hd]
      · simp [Memory.read, hd, hb, ih]

theorem Memory.length_readBytes (m : Memory) : ∀ (n a : Nat), (m.readBytes a n).length = n
  | 0, _ => rfl
  | n + 1, a => by simp [Memory.readBytes, Memory.length_readBytes m n (a + 1)]

theorem Memory.getElem?_readBytes (m : Memory) : ∀ (n a k : Nat),
    (m.readBytes a n)[k]? = if k < n then some (m.read (a + k)) else none
  | 0, _, k => by simp [Memory.readBytes]
  | n + 1, a, 0 => by simp [Memory.readBytes]
  | n + 1, a, k + 1 => by
    simp [Memory.readBytes, Memory.getElem?_readBytes m n (a + 1) k, Nat.add_right_comm, Nat.add_assoc]

/-- Row `r` of a run of bytes is the byte at its address (R33). -/
theorem Memory.getD_readBytes (m : Memory) (a : Nat) {n k : Nat} (h : k < n) :
    (m.readBytes a n).getD k 0 = m.read (a + k) := by
  simp [List.getD, Memory.getElem?_readBytes, h]

/-! ### The canonical form -/

theorem Memory.wf_cons (a : Nat) (v : Byte) (m : Memory) :
    Memory.wf ((a, v) :: m) = true ↔
      v ≠ Memory.unlisted a ∧ (∀ c ∈ m, a < c.1) ∧ Memory.wf m = true := by
  simp [Memory.wf, and_assoc]

theorem Memory.wf_filter (p : Host.Cell → Bool) (m : Memory) (h : m.wf = true) :
    Memory.wf (m.filter p) = true := by
  induction m with
  | nil => simp [Memory.wf]
  | cons c m ih =>
    obtain ⟨d, u⟩ := c
    obtain ⟨hu, hd, hm⟩ := (Memory.wf_cons d u m).mp h
    by_cases hp : p (d, u) = true
    · rw [List.filter_cons_of_pos hp]
      exact (Memory.wf_cons _ _ _).mpr ⟨hu, fun c hc => hd c (List.mem_filter.mp hc).1, ih hm⟩
    · rw [List.filter_cons_of_neg hp]; exact ih hm

theorem Memory.mem_insert (m : Memory) (a : Nat) (v : Byte) (c : Host.Cell) :
    c ∈ m.insert a v ↔ c = (a, v) ∨ c ∈ m := by
  induction m with
  | nil => simp [Memory.insert]
  | cons d m ih =>
    obtain ⟨b, u⟩ := d
    unfold Memory.insert
    split
    · simp
    · simp [ih, or_left_comm]

theorem Memory.wf_insert (m : Memory) (a : Nat) (v : Byte) (h : m.wf = true) (hv : v ≠ Memory.unlisted a)
    (ha : ∀ c ∈ m, c.1 ≠ a) : Memory.wf (m.insert a v) = true := by
  induction m with
  | nil => simp [Memory.insert, Memory.wf, hv]
  | cons d m ih =>
    obtain ⟨b, u⟩ := d
    obtain ⟨hu, hb, hm⟩ := (Memory.wf_cons b u m).mp h
    have hne : b ≠ a := ha (b, u) (by simp)
    unfold Memory.insert
    split
    · next hlt =>
      refine (Memory.wf_cons _ _ _).mpr ⟨hv, fun c hc => ?_, h⟩
      rcases List.mem_cons.mp hc with rfl | hc
      · exact hlt
      · exact Nat.lt_trans hlt (hb c hc)
    · next hge =>
      refine (Memory.wf_cons _ _ _).mpr ⟨hu, fun c hc => ?_, ih hm fun c hc => ha c (by simp [hc])⟩
      rcases (Memory.mem_insert m a v c).mp hc with rfl | hc
      · show b < a; omega
      · exact hb c hc

/-- A write keeps the canonical form. -/
theorem Memory.wf_write (m : Memory) (a : Nat) (v : Byte) (h : m.wf = true) :
    (m.write a v).wf = true := by
  unfold Memory.write
  split
  · exact Memory.wf_filter _ m h
  · next hv => exact Memory.wf_insert _ a v (Memory.wf_filter _ m h) hv (Memory.erase_ne m a)

/-- Consecutive writes keep the canonical form. -/
theorem Memory.wf_writeBytes (bs : List Byte) : ∀ (m : Memory) (a : Nat), m.wf = true →
    (m.writeBytes a bs).wf = true := by
  induction bs with
  | nil => intro m a h; exact h
  | cons b bs ih => intro m a h; exact ih _ _ (Memory.wf_write m a b h)

/-- Zeroing the bytes below the kernel region keeps the canonical form. -/
theorem Memory.wf_clearLow (m : Memory) (h : m.wf = true) : m.clearLow.wf = true :=
  Memory.wf_filter _ m h

/-- Memory after reset is in canonical form, whatever the boot image. -/
theorem Memory.wf_fromImage (image : List Byte) : (Memory.fromImage image).wf = true :=
  Memory.wf_writeBytes _ [] _ rfl

/-! ### Listed addresses exist -/

theorem Memory.inRange_iff (m : Memory) : m.inRange = true ↔ ∀ c ∈ m, c.1 < memSize := by
  simp [Memory.inRange]

theorem Memory.inRange_write (m : Memory) (a : Nat) (v : Byte) (h : m.inRange = true) (ha : a < memSize) :
    (m.write a v).inRange = true := by
  rw [Memory.inRange_iff] at h ⊢
  have he : ∀ c ∈ m.erase a, c.1 < memSize := fun c hc => h c (List.mem_filter.mp hc).1
  unfold Memory.write
  split
  · exact he
  · intro c hc
    rcases (Memory.mem_insert _ a v c).mp hc with rfl | hc
    · exact ha
    · exact he c hc

theorem Memory.inRange_writeBytes (bs : List Byte) : ∀ (m : Memory) (a : Nat), m.inRange = true →
    a + bs.length ≤ memSize → (m.writeBytes a bs).inRange = true := by
  induction bs with
  | nil => intro m a h _; exact h
  | cons b bs ih =>
    intro m a h hl
    have hl' : a + bs.length + 1 ≤ memSize := by simpa [Nat.add_assoc] using hl
    exact ih _ _ (Memory.inRange_write m a b h (by omega)) (by omega)

theorem Memory.inRange_clearLow (m : Memory) (h : m.inRange = true) : m.clearLow.inRange = true := by
  rw [Memory.inRange_iff] at h ⊢
  exact fun c hc => h c (List.mem_filter.mp hc).1

end Sys2Proof.Machine
end

