-- ==== Sys2Proof/Laws/State.lean ====
section
/-! SUPPORT. One lemma per field per update of the state, each true by rfl, and what a register or byte
reads after an update. -/

namespace Sys2Proof.Machine

/-! ### `State.writeV` -/

@[simp] theorem State.writeV_v (s : State) (x : Nibble) (b : Byte) :
    (s.writeV x b).v = s.v.set x.toNat b x.isLt := rfl
@[simp] theorem State.writeV_regI (s : State) (x : Nibble) (b : Byte) :
    (s.writeV x b).regI = s.regI := rfl
@[simp] theorem State.writeV_pc (s : State) (x : Nibble) (b : Byte) :
    (s.writeV x b).pc = s.pc := rfl
@[simp] theorem State.writeV_stack (s : State) (x : Nibble) (b : Byte) :
    (s.writeV x b).stack = s.stack := rfl
@[simp] theorem State.writeV_sp (s : State) (x : Nibble) (b : Byte) :
    (s.writeV x b).sp = s.sp := rfl
@[simp] theorem State.writeV_mode (s : State) (x : Nibble) (b : Byte) :
    (s.writeV x b).mode = s.mode := rfl
@[simp] theorem State.writeV_phase (s : State) (x : Nibble) (b : Byte) :
    (s.writeV x b).phase = s.phase := rfl
@[simp] theorem State.writeV_haltCause (s : State) (x : Nibble) (b : Byte) :
    (s.writeV x b).haltCause = s.haltCause := rfl
@[simp] theorem State.writeV_dt (s : State) (x : Nibble) (b : Byte) :
    (s.writeV x b).dt = s.dt := rfl
@[simp] theorem State.writeV_st (s : State) (x : Nibble) (b : Byte) :
    (s.writeV x b).st = s.st := rfl
@[simp] theorem State.writeV_keys (s : State) (x : Nibble) (b : Byte) :
    (s.writeV x b).keys = s.keys := rfl
@[simp] theorem State.writeV_fb (s : State) (x : Nibble) (b : Byte) :
    (s.writeV x b).fb = s.fb := rfl
@[simp] theorem State.writeV_mem (s : State) (x : Nibble) (b : Byte) :
    (s.writeV x b).mem = s.mem := rfl
@[simp] theorem State.writeV_params (s : State) (x : Nibble) (b : Byte) :
    (s.writeV x b).params = s.params := rfl
@[simp] theorem State.writeV_draws (s : State) (x : Nibble) (b : Byte) :
    (s.writeV x b).draws = s.draws := rfl
@[simp] theorem State.writeV_output (s : State) (x : Nibble) (b : Byte) :
    (s.writeV x b).output = s.output := rfl
@[simp] theorem State.writeV_inbox (s : State) (x : Nibble) (b : Byte) :
    (s.writeV x b).inbox = s.inbox := rfl

/-! ### `State.retireWith` -/

@[simp] theorem State.retireWith_v (o : CycleOutcome) (s : State) :
    (s.retireWith o).v = s.v := rfl
@[simp] theorem State.retireWith_regI (o : CycleOutcome) (s : State) :
    (s.retireWith o).regI = s.regI := rfl
@[simp] theorem State.retireWith_pc (o : CycleOutcome) (s : State) :
    (s.retireWith o).pc = s.pc + 2 := rfl
@[simp] theorem State.retireWith_stack (o : CycleOutcome) (s : State) :
    (s.retireWith o).stack = s.stack := rfl
@[simp] theorem State.retireWith_sp (o : CycleOutcome) (s : State) :
    (s.retireWith o).sp = s.sp := rfl
@[simp] theorem State.retireWith_mode (o : CycleOutcome) (s : State) :
    (s.retireWith o).mode = s.mode := rfl
@[simp] theorem State.retireWith_phase (o : CycleOutcome) (s : State) :
    (s.retireWith o).phase = s.phase := rfl
@[simp] theorem State.retireWith_haltCause (o : CycleOutcome) (s : State) :
    (s.retireWith o).haltCause = s.haltCause := rfl
@[simp] theorem State.retireWith_dt (o : CycleOutcome) (s : State) :
    (s.retireWith o).dt = s.dt := rfl
@[simp] theorem State.retireWith_st (o : CycleOutcome) (s : State) :
    (s.retireWith o).st = s.st := rfl
@[simp] theorem State.retireWith_keys (o : CycleOutcome) (s : State) :
    (s.retireWith o).keys = s.keys := rfl
@[simp] theorem State.retireWith_fb (o : CycleOutcome) (s : State) :
    (s.retireWith o).fb = s.fb := rfl
@[simp] theorem State.retireWith_mem (o : CycleOutcome) (s : State) :
    (s.retireWith o).mem = s.mem := rfl
@[simp] theorem State.retireWith_params (o : CycleOutcome) (s : State) :
    (s.retireWith o).params = s.params := rfl
@[simp] theorem State.retireWith_draws (o : CycleOutcome) (s : State) :
    (s.retireWith o).draws = s.draws := rfl
@[simp] theorem State.retireWith_output (o : CycleOutcome) (s : State) :
    (s.retireWith o).output = Output.ofCycle o := rfl
@[simp] theorem State.retireWith_inbox (o : CycleOutcome) (s : State) :
    (s.retireWith o).inbox = s.inbox := rfl

/-! ### `State.jump` -/

@[simp] theorem State.jump_v (target : Word) (s : State) :
    (s.jump target).v = s.v := rfl
@[simp] theorem State.jump_regI (target : Word) (s : State) :
    (s.jump target).regI = s.regI := rfl
@[simp] theorem State.jump_pc (target : Word) (s : State) :
    (s.jump target).pc = target := rfl
@[simp] theorem State.jump_stack (target : Word) (s : State) :
    (s.jump target).stack = s.stack := rfl
@[simp] theorem State.jump_sp (target : Word) (s : State) :
    (s.jump target).sp = s.sp := rfl
@[simp] theorem State.jump_mode (target : Word) (s : State) :
    (s.jump target).mode = s.mode := rfl
@[simp] theorem State.jump_phase (target : Word) (s : State) :
    (s.jump target).phase = s.phase := rfl
@[simp] theorem State.jump_haltCause (target : Word) (s : State) :
    (s.jump target).haltCause = s.haltCause := rfl
@[simp] theorem State.jump_dt (target : Word) (s : State) :
    (s.jump target).dt = s.dt := rfl
@[simp] theorem State.jump_st (target : Word) (s : State) :
    (s.jump target).st = s.st := rfl
@[simp] theorem State.jump_keys (target : Word) (s : State) :
    (s.jump target).keys = s.keys := rfl
@[simp] theorem State.jump_fb (target : Word) (s : State) :
    (s.jump target).fb = s.fb := rfl
@[simp] theorem State.jump_mem (target : Word) (s : State) :
    (s.jump target).mem = s.mem := rfl
@[simp] theorem State.jump_params (target : Word) (s : State) :
    (s.jump target).params = s.params := rfl
@[simp] theorem State.jump_draws (target : Word) (s : State) :
    (s.jump target).draws = s.draws := rfl
@[simp] theorem State.jump_output (target : Word) (s : State) :
    (s.jump target).output = Output.ofCycle .ok := rfl
@[simp] theorem State.jump_inbox (target : Word) (s : State) :
    (s.jump target).inbox = s.inbox := rfl

/-! ### `State.halt` -/

@[simp] theorem State.halt_v (f : FatalFault) (s : State) :
    (s.halt f).v = s.v := rfl
@[simp] theorem State.halt_regI (f : FatalFault) (s : State) :
    (s.halt f).regI = s.regI := rfl
@[simp] theorem State.halt_pc (f : FatalFault) (s : State) :
    (s.halt f).pc = s.pc := rfl
@[simp] theorem State.halt_stack (f : FatalFault) (s : State) :
    (s.halt f).stack = s.stack := rfl
@[simp] theorem State.halt_sp (f : FatalFault) (s : State) :
    (s.halt f).sp = s.sp := rfl
@[simp] theorem State.halt_mode (f : FatalFault) (s : State) :
    (s.halt f).mode = s.mode := rfl
@[simp] theorem State.halt_phase (f : FatalFault) (s : State) :
    (s.halt f).phase = .halted := rfl
@[simp] theorem State.halt_haltCause (f : FatalFault) (s : State) :
    (s.halt f).haltCause = f.cause := rfl
@[simp] theorem State.halt_dt (f : FatalFault) (s : State) :
    (s.halt f).dt = s.dt := rfl
@[simp] theorem State.halt_st (f : FatalFault) (s : State) :
    (s.halt f).st = s.st := rfl
@[simp] theorem State.halt_keys (f : FatalFault) (s : State) :
    (s.halt f).keys = s.keys := rfl
@[simp] theorem State.halt_fb (f : FatalFault) (s : State) :
    (s.halt f).fb = s.fb := rfl
@[simp] theorem State.halt_mem (f : FatalFault) (s : State) :
    (s.halt f).mem = s.mem := rfl
@[simp] theorem State.halt_params (f : FatalFault) (s : State) :
    (s.halt f).params = s.params := rfl
@[simp] theorem State.halt_draws (f : FatalFault) (s : State) :
    (s.halt f).draws = s.draws := rfl
@[simp] theorem State.halt_output (f : FatalFault) (s : State) :
    (s.halt f).output = Output.ofCycle (.fault f) := rfl
@[simp] theorem State.halt_inbox (f : FatalFault) (s : State) :
    (s.halt f).inbox = s.inbox := rfl

/-! ### `State.copyImage` -/

@[simp] theorem State.copyImage_v (s : State) (bytes : List Byte) :
    (s.copyImage bytes).v = s.v := rfl
@[simp] theorem State.copyImage_regI (s : State) (bytes : List Byte) :
    (s.copyImage bytes).regI = s.regI := rfl
@[simp] theorem State.copyImage_pc (s : State) (bytes : List Byte) :
    (s.copyImage bytes).pc = s.pc := rfl
@[simp] theorem State.copyImage_stack (s : State) (bytes : List Byte) :
    (s.copyImage bytes).stack = s.stack := rfl
@[simp] theorem State.copyImage_sp (s : State) (bytes : List Byte) :
    (s.copyImage bytes).sp = s.sp := rfl
@[simp] theorem State.copyImage_mode (s : State) (bytes : List Byte) :
    (s.copyImage bytes).mode = s.mode := rfl
@[simp] theorem State.copyImage_phase (s : State) (bytes : List Byte) :
    (s.copyImage bytes).phase = s.phase := rfl
@[simp] theorem State.copyImage_haltCause (s : State) (bytes : List Byte) :
    (s.copyImage bytes).haltCause = s.haltCause := rfl
@[simp] theorem State.copyImage_dt (s : State) (bytes : List Byte) :
    (s.copyImage bytes).dt = s.dt := rfl
@[simp] theorem State.copyImage_st (s : State) (bytes : List Byte) :
    (s.copyImage bytes).st = s.st := rfl
@[simp] theorem State.copyImage_keys (s : State) (bytes : List Byte) :
    (s.copyImage bytes).keys = s.keys := rfl
@[simp] theorem State.copyImage_fb (s : State) (bytes : List Byte) :
    (s.copyImage bytes).fb = s.fb := rfl
@[simp] theorem State.copyImage_mem (s : State) (bytes : List Byte) :
    (s.copyImage bytes).mem = s.mem.writeBytes userBase bytes := rfl
@[simp] theorem State.copyImage_params (s : State) (bytes : List Byte) :
    (s.copyImage bytes).params = s.params := rfl
@[simp] theorem State.copyImage_draws (s : State) (bytes : List Byte) :
    (s.copyImage bytes).draws = s.draws := rfl
@[simp] theorem State.copyImage_output (s : State) (bytes : List Byte) :
    (s.copyImage bytes).output = s.output := rfl
@[simp] theorem State.copyImage_inbox (s : State) (bytes : List Byte) :
    (s.copyImage bytes).inbox = s.inbox := rfl

/-! ### `State.kernelReset` -/

@[simp] theorem State.kernelReset_v (s : State) :
    (s.kernelReset).v = Vector.replicate 16 0 := rfl
@[simp] theorem State.kernelReset_regI (s : State) :
    (s.kernelReset).regI = 0 := rfl
@[simp] theorem State.kernelReset_pc (s : State) :
    (s.kernelReset).pc = s.pc := rfl
@[simp] theorem State.kernelReset_stack (s : State) :
    (s.kernelReset).stack = Vector.replicate 16 0 := rfl
@[simp] theorem State.kernelReset_sp (s : State) :
    (s.kernelReset).sp = 0 := rfl
@[simp] theorem State.kernelReset_mode (s : State) :
    (s.kernelReset).mode = s.mode := rfl
@[simp] theorem State.kernelReset_phase (s : State) :
    (s.kernelReset).phase = s.phase := rfl
@[simp] theorem State.kernelReset_haltCause (s : State) :
    (s.kernelReset).haltCause = s.haltCause := rfl
@[simp] theorem State.kernelReset_dt (s : State) :
    (s.kernelReset).dt = s.dt := rfl
@[simp] theorem State.kernelReset_st (s : State) :
    (s.kernelReset).st = s.st := rfl
@[simp] theorem State.kernelReset_keys (s : State) :
    (s.kernelReset).keys = s.keys := rfl
@[simp] theorem State.kernelReset_fb (s : State) :
    (s.kernelReset).fb = s.fb := rfl
@[simp] theorem State.kernelReset_mem (s : State) :
    (s.kernelReset).mem = s.mem.clearLow.writeBytes fontBase s.params.fontTable.toList := rfl
@[simp] theorem State.kernelReset_params (s : State) :
    (s.kernelReset).params = s.params := rfl
@[simp] theorem State.kernelReset_draws (s : State) :
    (s.kernelReset).draws = s.draws := rfl
@[simp] theorem State.kernelReset_output (s : State) :
    (s.kernelReset).output = s.output := rfl
@[simp] theorem State.kernelReset_inbox (s : State) :
    (s.kernelReset).inbox = s.inbox := rfl

/-! ### Registers -/

@[simp] theorem State.readV_writeV_self (s : State) (x : Nibble) (b : Byte) : (s.writeV x b).readV x = b := by
  simp [State.readV]

theorem State.readV_writeV_ne (s : State) (x r : Nibble) (b : Byte) (h : r ≠ x) :
    (s.writeV x b).readV r = s.readV r := by
  have hne : x.toNat ≠ r.toNat := fun e => h (BitVec.eq_of_toNat_eq e.symm)
  simp [State.readV, hne]

/-- What any register reads after a write. -/
theorem State.readV_writeV (s : State) (x r : Nibble) (b : Byte) :
    (s.writeV x b).readV r = if r = x then b else s.readV r := by
  by_cases h : r = x
  · subst h; simp
  · simp [h, State.readV_writeV_ne]

@[simp] theorem State.readV_retireWith (o : CycleOutcome) (s : State) (r : Nibble) :
    (s.retireWith o).readV r = s.readV r := rfl

@[simp] theorem State.readV_jump (target : Word) (s : State) (r : Nibble) :
    (s.jump target).readV r = s.readV r := rfl

@[simp] theorem State.readV_halt (f : FatalFault) (s : State) (r : Nibble) :
    (s.halt f).readV r = s.readV r := rfl

@[simp] theorem State.readV_copyImage (s : State) (bytes : List Byte) (r : Nibble) :
    (s.copyImage bytes).readV r = s.readV r := rfl

/-! ### Bytes of memory -/

@[simp] theorem State.readByte_writeV (s : State) (x : Nibble) (b : Byte) (a : Nat) :
    (s.writeV x b).readByte a = s.readByte a := rfl

@[simp] theorem State.readByte_retireWith (o : CycleOutcome) (s : State) (a : Nat) :
    (s.retireWith o).readByte a = s.readByte a := rfl

@[simp] theorem State.readByte_jump (target : Word) (s : State) (a : Nat) :
    (s.jump target).readByte a = s.readByte a := rfl

@[simp] theorem State.readByte_halt (f : FatalFault) (s : State) (a : Nat) :
    (s.halt f).readByte a = s.readByte a := rfl

end Sys2Proof.Machine
end

