-- ==== Sys2Proof/Laws/Ops.lean ====
section
/-! SUPPORT. One lemma per shared operation: everything it can do, for later proofs to cite. -/

namespace Sys2Proof.Machine

/-! ### The address check -/

/-- The three cases of the check (R37). -/
theorem State.check_cases (s : State) (a : Nat) :
    (memSize ≤ a ∧ s.check a = some (.outOfBoundsAccess a)) ∨
    (kernelBase ≤ a ∧ a < memSize ∧ s.mode = .user ∧ s.check a = some (.privilegeViolationAt a)) ∨
    (a < memSize ∧ (s.mode = .user → a < kernelBase) ∧ s.check a = none) := by
  unfold State.check
  by_cases h : memSize ≤ a
  · simp [h]
  · by_cases hm : s.mode = .user
    · by_cases hk : kernelBase ≤ a
      · simp [h, hm, hk]; omega
      · simp [h, hm, hk]; omega
    · simp [h, hm]; omega

/-- An address passes the check exactly when it exists and User mode may reach it (R35, R36). -/
theorem State.check_eq_none (s : State) (a : Nat) :
    s.check a = none ↔ a < memSize ∧ (s.mode = .user → a < kernelBase) := by
  rcases s.check_cases a with ⟨h, e⟩ | ⟨h, h', hm, e⟩ | ⟨h, h', e⟩ <;> simp [e]
  · intro hlt; omega
  · exact fun _ => ⟨hm, h⟩
  · exact ⟨h, h'⟩

/-- A run passes when every address passes. -/
theorem State.checkRun_eq_none (s : State) : ∀ (n a : Nat), s.checkRun a n = none ↔ s.Accessible a n
  | 0, a => by simp [State.checkRun, State.Accessible]
  | n + 1, a => by
    have ih := State.checkRun_eq_none s n (a + 1)
    unfold State.Accessible at ih ⊢
    unfold State.checkRun
    constructor
    · intro h k hk
      split at h
      · cases h
      · next hc =>
        cases k with
        | zero => exact hc
        | succ k => simpa [Nat.add_assoc, Nat.add_comm 1 k] using ih.mp h k (by omega)
    · intro h
      have hc : s.check a = none := h 0 (by omega)
      rw [hc]
      exact ih.mpr fun k hk => by simpa [Nat.add_assoc, Nat.add_comm 1 k] using h (k + 1) (by omega)

/-- A run that fails names the fault of its lowest failing address. -/
theorem State.checkRun_eq_some (s : State) (f : FatalFault) : ∀ (n a : Nat),
    s.checkRun a n = some f ↔ s.FirstFault a n f
  | 0, a => by simp [State.checkRun, State.FirstFault]
  | n + 1, a => by
    have ih := State.checkRun_eq_some s f n (a + 1)
    unfold State.FirstFault at ih ⊢
    unfold State.checkRun
    constructor
    · intro h
      split at h
      · next g hc => exact ⟨0, by omega, by omega, by simpa [hc] using h⟩
      · next hc =>
        obtain ⟨k, hk, hj, hf⟩ := ih.mp h
        refine ⟨k + 1, by omega, fun j hjk => ?_, by simpa [Nat.add_assoc, Nat.add_comm 1 k] using hf⟩
        cases j with
        | zero => exact hc
        | succ j => simpa [Nat.add_assoc, Nat.add_comm 1 j] using hj j (by omega)
    · rintro ⟨k, hk, hj, hf⟩
      cases k with
      | zero => simp only [Nat.add_zero] at hf; rw [hf]
      | succ k =>
        have h0 : s.check a = none := hj 0 (by omega)
        rw [h0]
        refine ih.mpr ⟨k, by omega, fun j hjk => ?_, by simpa [Nat.add_assoc, Nat.add_comm 1 k] using hf⟩
        simpa [Nat.add_assoc, Nat.add_comm 1 j] using hj (j + 1) (by omega)

/-- The check reads the mode and nothing else. -/
theorem State.checkRun_congr {s t : State} (h : t.mode = s.mode) : ∀ n a, t.checkRun a n = s.checkRun a n
  | 0, _ => rfl
  | n + 1, a => by simp [State.checkRun, State.check, h, State.checkRun_congr h n (a + 1)]

/-- An access either takes the first fault with nothing committed, or completes its effect. -/
theorem withAccess_cases (s : State) (a n : Nat) (e : State) :
    (∃ f, s.FirstFault a n f ∧ withAccess s a n e = .next (s.halt f)) ∨
    (s.Accessible a n ∧ withAccess s a n e = .next (e.retireWith .ok)) := by
  unfold withAccess
  cases h : s.checkRun a n with
  | some f => exact .inl ⟨f, (s.checkRun_eq_some f n a).mp h, rfl⟩
  | none => exact .inr ⟨(s.checkRun_eq_none n a).mp h, rfl⟩

theorem withAccess_of_accessible {s : State} {a n : Nat} (h : s.Accessible a n) (e : State) :
    withAccess s a n e = .next (e.retireWith .ok) := by
  simp [withAccess, (s.checkRun_eq_none n a).mpr h, complete]

theorem withAccess_of_fault {s : State} {a n : Nat} {f : FatalFault} (h : s.FirstFault a n f) (e : State) :
    withAccess s a n e = .next (s.halt f) := by
  simp [withAccess, (s.checkRun_eq_some f n a).mpr h, raise]

/-! ### The call stack -/

/-- A push on a stack with room (R63). -/
theorem State.push_of_lt {s : State} (h : s.sp.toNat < 16) (ret target : Word) :
    s.push ret target = .next ({ s with stack := s.stack.set s.sp.toNat ret h, sp := s.sp + 1 }.jump target) := by
  simp [State.push, h, completeAt]

/-- A pop of an entry that exists (R61). -/
theorem State.pop_of_lt {s : State} (h : (s.sp - 1).toNat < 16) :
    s.pop = .next ({ s with sp := s.sp - 1 }.jump (s.stack[(s.sp - 1).toNat]'h)) := by
  unfold State.pop; rw [dif_pos h]; rfl

/-! ### Skips, key selection, register runs -/

/-- A skip completes, two or four bytes on (R13). -/
theorem skipWhen_eq (c : Bool) (s : State) :
    skipWhen c s = .next (s.jump (if c then s.pc + 4 else s.pc + 2)) := by
  have h4 : s.pc + 2 + 2 = s.pc + 4 := by bv_omega
  cases c
  · rfl
  · show completeAt (s.pc + 2 + 2) s = _
    rw [completeAt, h4]; rfl

/-- Two loads of the register run agree with the bytes where there are any (R96). -/
theorem readV_loadRun (s : State) (bytes : List Byte) (r : Nibble) :
    ({ s with v := loadRun s.v bytes } : State).readV r = (bytes[r.toNat]?).getD (s.readV r) := by
  simp [State.readV, loadRun]

/-- Every key number in the order of `KEY_PICK` is below 16, and each of the sixteen is in it (R89). -/
theorem mem_keyOrder (p : Params) (k : Nat) : k ∈ keyOrder p ↔ k < 16 := by
  simp only [keyOrder, List.mem_append, List.mem_map, List.mem_range]
  constructor
  · rintro (⟨b, _, rfl⟩ | h)
    · exact b.isLt
    · exact h
  · exact .inr

/-- No key is picked exactly when none is down (R89). -/
theorem keyPick_eq_none (p : Params) (keys : BitVec 16) :
    keyPick p keys = none ↔ ∀ k : Nat, k < 16 → keys.getLsbD k = false := by
  simp [keyPick, List.find?_eq_none, mem_keyOrder]

/-- The key picked is down (R89). -/
theorem keyPick_eq_some {p : Params} {keys : BitVec 16} {b : Byte} (h : keyPick p keys = some b) :
    b.toNat < 16 ∧ keys.getLsbD b.toNat = true := by
  unfold keyPick at h
  obtain ⟨k, hk, rfl⟩ := Option.map_eq_some_iff.mp h
  have hlt : k < 16 := (mem_keyOrder p k).mp (List.mem_of_find?_eq_some hk)
  have : (BitVec.ofNat 8 k).toNat = k := by simp; omega
  rw [this]
  exact ⟨hlt, by simpa using List.find?_some hk⟩

/-- With no key preferred the key picked is the lowest that is down (R89, D20). -/
theorem keyPick_lowest {p : Params} {keys : BitVec 16} {b : Byte} (hp : p.keyFirst = [])
    (h : keyPick p keys = some b) : ∀ k : Nat, k < b.toNat → keys.getLsbD k = false := by
  unfold keyPick keyOrder at h
  rw [hp, List.map_nil, List.nil_append] at h
  obtain ⟨k, hk, rfl⟩ := Option.map_eq_some_iff.mp h
  obtain ⟨_, i, hi, he, hj⟩ := List.find?_eq_some_iff_getElem.mp hk
  simp at hi he hj
  subst he
  have : (BitVec.ofNat 8 i).toNat = i := by simp; omega
  rw [this]
  exact fun j hjk => hj j hjk

/-! ### Drawing -/

/-- The cells after one pixel (R83). -/
theorem drawPixel_cell (cv : Canvas) (on : Bool) (cx cy k : Nat) (hk : k < 2048) :
    (drawPixel cv on cx cy).1.cell k =
      (cv.1.cell k ^^ (on && decide (k % 64 = cx ∧ k / 64 = cy))) := by
  have hy : k / 64 < 32 := by omega
  have hx : k % 64 < 64 := by omega
  unfold drawPixel
  split
  · next hcy =>
    split
    · next hon =>
      obtain ⟨rfl, hcx⟩ := hon
      simp only [Framebuffer.cell, hy, dif_pos, Vector.getElem_set, Bool.true_and]
      by_cases he : cy = k / 64
      · subst he
        by_cases hxe : k % 64 = cx
        · subst hxe; simp [hx]
        · have hb : (1#64 <<< cx).getLsbD (k % 64) = false := by
            simp [BitVec.getLsbD_shiftLeft, BitVec.getLsbD_one]; omega
          simp [hxe, hb]
      · simp [he, Ne.symm he]
    · next hon =>
      by_cases h1 : on = true
      · have hcx : ¬ cx < 64 := fun h => hon ⟨h1, h⟩
        have : ¬ k % 64 = cx := by omega
        simp [this]
      · simp [Bool.not_eq_true _ ▸ h1]
  · next hcy =>
    have : ¬ k / 64 = cy := by omega
    simp [this]

/-- The cells after the last `n` columns of a sprite row (R83, R84). -/
theorem drawColumns_cell (b : Byte) (x0 cy k : Nat) (hk : k < 2048) : ∀ (n : Nat) (cv : Canvas), n ≤ 8 →
    (drawColumns cv b x0 cy n).1.cell k =
      (cv.1.cell k ^^ (decide (k / 64 = cy ∧ x0 + 8 ≤ k % 64 + n ∧ k % 64 < x0 + 8) &&
        spriteBit b (k % 64 - x0)))
  | 0, cv, _ => by
    have h : ¬ (k / 64 = cy ∧ x0 + 8 ≤ k % 64 + 0 ∧ k % 64 < x0 + 8) := by omega
    simp only [drawColumns, decide_eq_false h, Bool.false_and, Bool.xor_false]
  | n + 1, cv, hn => by
    rw [drawColumns, drawColumns_cell b x0 cy k hk n _ (by omega), drawPixel_cell _ _ _ _ _ hk, Bool.xor_assoc]
    congr 1
    by_cases hy : k / 64 = cy
    · by_cases hx : k % 64 = x0 + (7 - n)
      · simp only [hy, hx]
        have h4 : x0 + 8 ≤ x0 + (7 - n) + (n + 1) ∧ x0 + (7 - n) < x0 + 8 := by omega
        have h5 : ¬ (x0 + 8 ≤ x0 + (7 - n) + n) := by omega
        simp [h4, h5]
      · have h : (x0 + 8 ≤ k % 64 + n ∧ k % 64 < x0 + 8) ↔ (x0 + 8 ≤ k % 64 + (n + 1) ∧ k % 64 < x0 + 8) := by omega
        simp [hy, hx, h]
    · simp [hy]

/-- The cells after the rows of a sprite: XOR with the picture the rows cover (R83, R84). -/
theorem drawRows_cell (x0 k : Nat) (hk : k < 2048) : ∀ (bs : List Byte) (cv : Canvas) (cy : Nat),
    (drawRows cv x0 cy bs).1.cell k =
      (cv.1.cell k ^^ covers (fun r => bs.getD r 0) bs.length x0 cy k)
  | [], cv, cy => by
    have h : ¬ (x0 ≤ k % 64 ∧ k % 64 < x0 + 8 ∧ cy ≤ k / 64 ∧ k / 64 < cy + 0) := by omega
    simp only [drawRows, covers, List.length_nil, decide_eq_false h, Bool.false_and, Bool.xor_false]
  | b :: bs, cv, cy => by
    rw [drawRows, drawRows_cell x0 k hk bs, drawColumns_cell _ _ _ _ hk 8 _ (Nat.le_refl 8), Bool.xor_assoc]
    congr 1
    simp only [covers, spriteBit, List.length_cons]
    by_cases hx : x0 ≤ k % 64 ∧ k % 64 < x0 + 8
    · by_cases hy : k / 64 = cy
      · have h2 : ¬ (cy + 1 ≤ cy) := by omega
        simp [hx, hy, h2]
      · by_cases hy2 : cy ≤ k / 64
        · have h3 : cy + 1 ≤ k / 64 := by omega
          have h4 : k / 64 - cy = (k / 64 - (cy + 1)) + 1 := by omega
          have h5 : k / 64 < cy + 1 + bs.length ↔ k / 64 < cy + (bs.length + 1) := by omega
          rw [h4]
          simp [hx, hy, hy2, h3, h5]
        · have h3 : ¬ cy + 1 ≤ k / 64 := by omega
          simp [hy, hy2, h3]
    · have h6 : ¬ (x0 + 8 ≤ k % 64 + 8 ∧ k % 64 < x0 + 8) := by omega
      have h7 : ∀ P : Prop, ¬ (x0 ≤ k % 64 ∧ k % 64 < x0 + 8 ∧ P) := by intro P; omega
      have h8 : ∀ P : Prop, ¬ (P ∧ x0 + 8 ≤ k % 64 + 8 ∧ k % 64 < x0 + 8) := by intro P; omega
      simp only [decide_eq_false (h7 _), decide_eq_false (h8 _), Bool.false_and, Bool.xor_false]

/-! ### Ends of an instruction -/

/-- A write of a register followed by completion sets that register and nothing else (R69). -/
theorem setsRegister_complete (s : State) (x : Nibble) (b : Byte) :
    complete (s.writeV x b) = .next ((s.writeV x b).retireWith .ok) ∧
    SetsRegister x b s ((s.writeV x b).retireWith .ok) := by
  refine ⟨rfl, by simp, fun r hr => by simp [State.readV_writeV_ne _ _ _ _ hr], fun p hp => ?_, rfl, rfl⟩
  cases p <;> simp at hp <;> first | rfl | exact fun _ => rfl

/-- A result followed by a flag, with the flag last (R82). -/
theorem setsRegisterAndFlag_complete (s : State) (x : Nibble) (b f : Byte) :
    completeWithFlag s x b f = .next (((s.writeV x b).writeFlag f).retireWith .ok) ∧
    SetsRegisterAndFlag x b f s (((s.writeV x b).writeFlag f).retireWith .ok) := by
  refine ⟨rfl, ?_, fun h => ?_, fun r h1 h2 => ?_, fun p hp => ?_, rfl, rfl⟩
  · simp [State.writeFlag]
  · show ((s.writeV x b).writeV 0xF f).readV x = b
    rw [State.readV_writeV_ne _ _ _ _ h, State.readV_writeV_self]
  · show ((s.writeV x b).writeV 0xF f).readV r = s.readV r
    rw [State.readV_writeV_ne _ _ _ _ h2, State.readV_writeV_ne _ _ _ _ h1]
  · cases p <;> simp at hp <;> first | rfl | exact fun _ => rfl

/-- A control transfer changes `pc` and the output only (R13). -/
theorem sameExcept_jump (s : State) (target : Word) : SameExcept [.pc, .output] s (s.jump target) := by
  intro p hp
  cases p <;> simp at hp <;> first | rfl | exact fun _ => rfl

/-- A no-op with a diagnostic changes `pc` and the output only (R51). -/
theorem sameExcept_retireWith (s : State) (o : CycleOutcome) :
    SameExcept [.pc, .output] s (s.retireWith o) := by
  intro p hp
  cases p <;> simp at hp <;> first | rfl | exact fun _ => rfl

/-- In Kernel mode a syscall word runs its service (R98). -/
theorem syscall_of_kernel {s : State} (h : s.mode = .kernel) (nn : Byte)
    (o : Host.Outcome State Fault Refusal) : syscall nn o s = o := by
  simp [syscall, canInvokeKernelSyscall, h]

/-- In User mode a syscall word takes PrivilegeViolation (R104). -/
theorem syscall_of_user {s : State} (h : s.mode = .user) (nn : Byte)
    (o : Host.Outcome State Fault Refusal) :
    syscall nn o s = .next (s.halt (.privilegeViolationWord (syscallWord nn))) := by
  simp [syscall, canInvokeKernelSyscall, h, raise]

/-- A run of addresses that passes the check ends inside memory (R35). -/
theorem State.Accessible.end_le {s : State} {a n : Nat} (h : s.Accessible a n) (hn : 0 < n) :
    a + n ≤ memSize := by
  have := (s.check_eq_none (a + (n - 1))).mp (h (n - 1) (by omega))
  omega

/-- In User mode it ends below the kernel region (R36). -/
theorem State.Accessible.end_le_of_user {s : State} {a n : Nat} (h : s.Accessible a n) (hn : 0 < n)
    (hm : s.mode = .user) : a + n ≤ kernelBase := by
  have := ((s.check_eq_none (a + (n - 1))).mp (h (n - 1) (by omega))).2 hm
  omega

/-- The number of bytes a register run stores (R95). -/
theorem length_regRun (s : State) (x : Nibble) : (s.regRun x).length = runLength x := by
  have := x.isLt
  simp [State.regRun, runLength]
  omega

/-! ### The end of a cycle -/

/-- `pc` is outside the kernel range below 0x1000 and above 0x13FF (R123). -/
theorem inKernelRange_eq_false (pc : Word) :
    inKernelRange pc = false ↔ pc.toNat < 0x1000 ∨ 0x13FF < pc.toNat := by
  rw [inKernelRange, decide_eq_false_iff_not]
  simp only [kernelBase, kernelEnd]
  omega

/-- What the boot-exit test does (R123). -/
theorem State.bootExit_cases (s : State) :
    (s.phase ≠ .halted ∧ s.mode = .kernel ∧ inKernelRange s.pc = false ∧
      s.bootExit = { s with mode := .user, phase := .userRunning, pc := 0x200 }) ∨
    ((s.phase = .halted ∨ s.mode = .user ∨ inKernelRange s.pc = true) ∧ s.bootExit = s) := by
  unfold State.bootExit
  by_cases h : s.phase ≠ .halted ∧ s.mode = .kernel ∧ inKernelRange s.pc = false
  · exact .inl ⟨h.1, h.2.1, h.2.2, by simp [h]⟩
  · refine .inr ⟨?_, by simp only [h, if_false]⟩
    by_cases h1 : s.phase = .halted
    · exact .inl h1
    · cases hm : s.mode with
      | user => exact .inr (.inl rfl)
      | kernel =>
        cases hr : inKernelRange s.pc with
        | true => exact .inr (.inr rfl)
        | false => exact absurd ⟨h1, hm, hr⟩ h

/-! ### The disk -/

/-- The slots 0 to 3 hold what the host populated (R102). -/
theorem State.diskEntry_of_lt {n : Nat} (h : n < 4) (s : State) : s.diskEntry n = s.params.disk[n]'h := by
  simp [State.diskEntry, h]

/-- A slot above 3 holds nothing (R102). -/
theorem State.diskEntry_of_gt {n : Nat} (h : 3 < n) (s : State) : s.diskEntry n = none := by
  unfold State.diskEntry
  rw [dif_neg (by omega)]

/-- A name finds no entry exactly when none bears it (R143). -/
theorem State.findEntry_name_eq_none (s : State) (nm : String) :
    s.findEntry (.name nm) = none ↔
      ∀ (k : Nat) (hk : k < 4) (d : DiskEntry), s.params.disk[k]'hk = some d → d.name ≠ nm := by
  simp only [State.findEntry, List.findSome?_eq_none_iff, Option.filter_eq_none_iff, decide_eq_true_eq]
  constructor
  · intro h k hk d hd
    exact h _ (by simp) d hd
  · intro h slot hs d hd
    obtain ⟨k, hk, rfl⟩ := List.mem_iff_getElem.mp hs
    exact h k (by simpa using hk) d (by simpa using hd)

/-- What a name finds is the entry of a slot and bears that name (R143). -/
theorem State.findEntry_name_eq_some {s : State} {nm : String} {d : DiskEntry}
    (h : s.findEntry (.name nm) = some d) :
    d.name = nm ∧ ∃ (k : Nat) (hk : k < 4), s.params.disk[k]'hk = some d := by
  obtain ⟨slot, hs, hd⟩ := List.exists_of_findSome?_eq_some h
  rw [Option.filter_eq_some_iff] at hd
  obtain ⟨k, hk, rfl⟩ := List.mem_iff_getElem.mp hs
  exact ⟨by simpa using hd.2, k, by simpa using hk, by simpa using hd.1⟩

end Sys2Proof.Machine
end

