-- ==== Sys2Proof/Laws/Exec.lean ====
section
/-! SUPPORT. Everything `exec` can do, once for all instructions: it takes a fatal fault with nothing
committed, or goes on with the control state carried over, or finds no stack entry. -/

namespace Sys2Proof.Machine

/-- What every instruction that does not fault carries over: phase, mode, halt cause, the parameters and
the host's further events. -/
def Carried (s t : State) : Prop :=
  t.phase = s.phase ∧ t.mode = s.mode ∧ t.haltCause = s.haltCause ∧ t.params = s.params ∧ t.inbox = s.inbox

/-- The three ways an instruction ends (R111, R49, log 7). -/
def EndsWell (s : State) (o : Host.Outcome State Fault Refusal) : Prop :=
  (∃ f, o = .next (s.halt f)) ∨ (∃ t, o = .next t ∧ Carried s t) ∨
    (o = .fault (.noStackEntry s.sp) ∧ 16 < s.sp.toNat)

theorem EndsWell.of_carried {s t : State} (h : Carried s t) : EndsWell s (.next t) := .inr (.inl ⟨t, rfl, h⟩)

theorem EndsWell.of_raise (f : FatalFault) (s : State) : EndsWell s (raise f s) := .inl ⟨f, rfl⟩

theorem EndsWell.of_skipWhen (c : Bool) (s : State) : EndsWell s (skipWhen c s) := by
  rw [skipWhen_eq]
  exact .of_carried ⟨rfl, rfl, rfl, rfl, rfl⟩

theorem EndsWell.of_withAccess {s e : State} (a n : Nat) (h : Carried s (e.retireWith .ok)) :
    EndsWell s (withAccess s a n e) := by
  rcases withAccess_cases s a n e with ⟨f, -, hf⟩ | ⟨-, hn⟩
  · rw [hf]; exact .inl ⟨f, rfl⟩
  · rw [hn]; exact .of_carried h

theorem EndsWell.of_syscall {s : State} (nn : Byte) {o : Host.Outcome State Fault Refusal}
    (h : EndsWell s o) : EndsWell s (syscall nn o s) := by
  unfold syscall
  split
  · exact h
  · exact .of_raise _ s

theorem EndsWell.of_kernelLoad (s : State) : EndsWell s (kernelLoad s) := by
  unfold kernelLoad
  split
  · exact .of_carried ⟨rfl, rfl, rfl, rfl, rfl⟩
  · split
    · exact .of_carried ⟨rfl, rfl, rfl, rfl, rfl⟩
    · exact .of_carried ⟨rfl, rfl, rfl, rfl, rfl⟩

theorem EndsWell.of_execRet (s : State) : EndsWell s (execRet s) := by
  unfold execRet
  split
  · exact .of_raise _ s
  · next h0 =>
    unfold State.pop
    split
    · exact .of_carried ⟨rfl, rfl, rfl, rfl, rfl⟩
    · next h1 => exact .inr (.inr ⟨rfl, by bv_omega⟩)

theorem EndsWell.of_execCall (nnn : Addr12) (s : State) : EndsWell s (execCall nnn s) := by
  unfold execCall
  split
  · exact .of_raise _ s
  · next h0 =>
    unfold State.push
    split
    · exact .of_carried ⟨rfl, rfl, rfl, rfl, rfl⟩
    · next h1 => exact .inr (.inr ⟨rfl, by bv_omega⟩)

theorem EndsWell.of_key {s : State} (b : Byte) (c : Bool) :
    EndsWell s (if 15 < b.toNat then raise (.keyIndexOutOfRange b) s else skipWhen c s) := by
  split
  · exact .of_raise _ s
  · exact .of_skipWhen _ s

theorem EndsWell.of_execLdVxK (x : Nibble) (s : State) : EndsWell s (execLdVxK x s) := by
  unfold execLdVxK
  split <;> exact .of_carried ⟨rfl, rfl, rfl, rfl, rfl⟩

theorem EndsWell.of_execDrw (x y n : Nibble) (s : State) : EndsWell s (execDrw x y n s) := by
  unfold execDrw
  apply EndsWell.of_withAccess
  simp [Carried, State.writeFlag]

theorem EndsWell.of_execLoadRegs (x : Nibble) (s : State) : EndsWell s (execLoadRegs x s) := by
  unfold execLoadRegs
  apply EndsWell.of_withAccess
  simp [Carried]

/-- Every instruction ends in one of the three ways. -/
theorem exec_endsWell (i : Instr) (s : State) : EndsWell s (exec i s) := by
  cases i with
  | ret => exact .of_execRet s
  | call nnn => exact .of_execCall nnn s
  | seImm x nn => exact .of_skipWhen _ s
  | sneImm x nn => exact .of_skipWhen _ s
  | seReg x y => exact .of_skipWhen _ s
  | sneReg x y => exact .of_skipWhen _ s
  | skp x => exact .of_key _ _
  | sknp x => exact .of_key _ _
  | drw x y n => exact .of_execDrw x y n s
  | ldB x => exact .of_withAccess _ _ ⟨rfl, rfl, rfl, rfl, rfl⟩
  | storeRegs x => exact .of_withAccess _ _ ⟨rfl, rfl, rfl, rfl, rfl⟩
  | loadRegs x => exact .of_execLoadRegs x s
  | ldVxK x => exact .of_execLdVxK x s
  | kload => exact .of_syscall _ (.of_kernelLoad s)
  | kreset => exact .of_syscall _ (.of_carried ⟨rfl, rfl, rfl, rfl, rfl⟩)
  | kioreset => exact .of_syscall _ (.of_carried ⟨rfl, rfl, rfl, rfl, rfl⟩)
  | kshell => exact .of_syscall _ (.of_carried ⟨rfl, rfl, rfl, rfl, rfl⟩)
  | ksys nn => exact .of_syscall _ (.of_carried ⟨rfl, rfl, rfl, rfl, rfl⟩)
  | cls | jp | ldImm | addImm | ldReg | orReg | andReg | xorReg | addReg | subReg | shr | subn | shl
  | ldI | jpV0 | rnd | ldVxDt | ldDtVx | ldStVx | addI | ldF | unknown =>
    exact .of_carried ⟨rfl, rfl, rfl, rfl, rfl⟩

/-- No instruction is refused. -/
theorem exec_never_refused (i : Instr) (s : State) (r : Refusal) : exec i s ≠ .refused r := by
  intro h
  rcases exec_endsWell i s with ⟨f, hf⟩ | ⟨t, ht, -⟩ | ⟨hf, -⟩ <;> simp_all

end Sys2Proof.Machine
end

