-- ==== Sys2Proof/Laws/PerInstr.lean ====
section
/-! SUPPORT. Per instruction: a well-formed instruction's encoded word selects its own row of the opcode
table (spec 30_encoding.md R50, R58). -/

namespace Sys2Proof.Laws.RowMatch

/-- The row of the opcode table an instruction stands for; UNKNOWN stands for none of them. -/
def rowOf (i : Instr) : Option Row :=
  match i with
  | .cls => some ⟨0xFFFF, 0x00E0, .any⟩
  | .ret => some ⟨0xFFFF, 0x00EE, .any⟩
  | .jp _ => some ⟨0xF000, 0x1000, .any⟩
  | .call _ => some ⟨0xF000, 0x2000, .any⟩
  | .seImm _ _ => some ⟨0xF000, 0x3000, .any⟩
  | .sneImm _ _ => some ⟨0xF000, 0x4000, .any⟩
  | .seReg _ _ => some ⟨0xF00F, 0x5000, .any⟩
  | .ldImm _ _ => some ⟨0xF000, 0x6000, .any⟩
  | .addImm _ _ => some ⟨0xF000, 0x7000, .any⟩
  | .ldReg _ _ => some ⟨0xF00F, 0x8000, .any⟩
  | .orReg _ _ => some ⟨0xF00F, 0x8001, .any⟩
  | .andReg _ _ => some ⟨0xF00F, 0x8002, .any⟩
  | .xorReg _ _ => some ⟨0xF00F, 0x8003, .any⟩
  | .addReg _ _ => some ⟨0xF00F, 0x8004, .any⟩
  | .subReg _ _ => some ⟨0xF00F, 0x8005, .any⟩
  | .shr _ _ => some ⟨0xF00F, 0x8006, .any⟩
  | .subn _ _ => some ⟨0xF00F, 0x8007, .any⟩
  | .shl _ _ => some ⟨0xF00F, 0x800E, .any⟩
  | .sneReg _ _ => some ⟨0xF00F, 0x9000, .any⟩
  | .ldI _ => some ⟨0xF000, 0xA000, .any⟩
  | .jpV0 _ => some ⟨0xF000, 0xB000, .any⟩
  | .rnd _ _ => some ⟨0xF000, 0xC000, .any⟩
  | .drw _ _ _ => some ⟨0xF000, 0xD000, .any⟩
  | .skp _ => some ⟨0xF0FF, 0xE09E, .any⟩
  | .sknp _ => some ⟨0xF0FF, 0xE0A1, .any⟩
  | .ldVxDt _ => some ⟨0xF0FF, 0xF007, .xNonzero⟩
  | .ldVxK _ => some ⟨0xF0FF, 0xF00A, .xNonzero⟩
  | .ldDtVx _ => some ⟨0xF0FF, 0xF015, .xNonzero⟩
  | .ldStVx _ => some ⟨0xF0FF, 0xF018, .xNonzero⟩
  | .addI _ => some ⟨0xF0FF, 0xF01E, .xNonzero⟩
  | .ldF _ => some ⟨0xF0FF, 0xF029, .xNonzero⟩
  | .ldB _ => some ⟨0xF0FF, 0xF033, .xNonzero⟩
  | .storeRegs _ => some ⟨0xF0FF, 0xF055, .xNonzero⟩
  | .loadRegs _ => some ⟨0xF0FF, 0xF065, .xNonzero⟩
  | .kreset => some ⟨0xFFFF, 0xF000, .any⟩
  | .kioreset => some ⟨0xFFFF, 0xF004, .any⟩
  | .kshell => some ⟨0xFFFF, 0xF006, .any⟩
  | .kload => some ⟨0xFFFF, 0xF008, .any⟩
  | .ksys _ => some ⟨0xFF00, 0xF000, .idUndefined⟩
  | .unknown _ => none

/-- The encoded word of a well-formed instruction selects the instruction's row, which is a row of the
table; that of UNKNOWN selects none. -/
def Statement (i : Instr) : Prop :=
  i.wellFormed = true →
    match rowOf i with
    | some r => r ∈ opcodeRows ∧ r.selects (encode i) = true
    | none => isKnown (encode i) = false

/-- A row without a constraint is selected by a word whose masked bits are the row's. -/
theorem selects_any {m v op : Word} (h : op &&& m = v) : (⟨m, v, .any⟩ : Row).selects op = true := by
  simp [Row.selects, RowConstraint.holds, h]

/-- A row of the user instructions of family F is selected by a word that also has `x` not 0. -/
theorem selects_xNonzero {m v op : Word} (h : op &&& m = v) (hx : (fieldX op != 0) = true) :
    (⟨m, v, .xNonzero⟩ : Row).selects op = true := by
  have hx' : (op.extractLsb' 8 4 != 0) = true := hx
  simp only [Row.selects, RowConstraint.holds, h, hx', beq_self_eq_true, Bool.and_true]

/-- The nine user instructions of family F select their rows. -/
theorem selects_userF {x : Nibble} (c : Byte) {v : Word} (hv : (0xF#4 ++ 0#4 ++ c : BitVec 16) = v)
    (hx : (x != 0) = true) : (⟨0xF0FF, v, .xNonzero⟩ : Row).selects (0xF#4 ++ x ++ c) = true :=
  selects_xNonzero ((mask_xss 0xF x c).trans hv) (by rw [fieldX_xnn]; exact hx)

theorem cls : Statement .cls := fun _ => ⟨by decide, by decide⟩

theorem ret : Statement .ret := fun _ => ⟨by decide, by decide⟩

theorem jp (nnn : Addr12) : Statement (.jp nnn) :=
  fun _ => ⟨by decide, selects_any ((mask_nnn 0x1 nnn).trans (by decide))⟩

theorem call (nnn : Addr12) : Statement (.call nnn) :=
  fun _ => ⟨by decide, selects_any ((mask_nnn 0x2 nnn).trans (by decide))⟩

theorem seImm (x : Nibble) (nn : Byte) : Statement (.seImm x nn) :=
  fun _ => ⟨by decide, selects_any ((mask_xnn 0x3 x nn).trans (by decide))⟩

theorem sneImm (x : Nibble) (nn : Byte) : Statement (.sneImm x nn) :=
  fun _ => ⟨by decide, selects_any ((mask_xnn 0x4 x nn).trans (by decide))⟩

theorem seReg (x y : Nibble) : Statement (.seReg x y) :=
  fun _ => ⟨by decide, selects_any ((mask_xyn 0x5 x y 0x0).trans (by decide))⟩

theorem ldImm (x : Nibble) (nn : Byte) : Statement (.ldImm x nn) :=
  fun _ => ⟨by decide, selects_any ((mask_xnn 0x6 x nn).trans (by decide))⟩

theorem addImm (x : Nibble) (nn : Byte) : Statement (.addImm x nn) :=
  fun _ => ⟨by decide, selects_any ((mask_xnn 0x7 x nn).trans (by decide))⟩

theorem ldReg (x y : Nibble) : Statement (.ldReg x y) :=
  fun _ => ⟨by decide, selects_any ((mask_xyn 0x8 x y 0x0).trans (by decide))⟩

theorem orReg (x y : Nibble) : Statement (.orReg x y) :=
  fun _ => ⟨by decide, selects_any ((mask_xyn 0x8 x y 0x1).trans (by decide))⟩

theorem andReg (x y : Nibble) : Statement (.andReg x y) :=
  fun _ => ⟨by decide, selects_any ((mask_xyn 0x8 x y 0x2).trans (by decide))⟩

theorem xorReg (x y : Nibble) : Statement (.xorReg x y) :=
  fun _ => ⟨by decide, selects_any ((mask_xyn 0x8 x y 0x3).trans (by decide))⟩

theorem addReg (x y : Nibble) : Statement (.addReg x y) :=
  fun _ => ⟨by decide, selects_any ((mask_xyn 0x8 x y 0x4).trans (by decide))⟩

theorem subReg (x y : Nibble) : Statement (.subReg x y) :=
  fun _ => ⟨by decide, selects_any ((mask_xyn 0x8 x y 0x5).trans (by decide))⟩

theorem shr (x y : Nibble) : Statement (.shr x y) :=
  fun _ => ⟨by decide, selects_any ((mask_xyn 0x8 x y 0x6).trans (by decide))⟩

theorem subn (x y : Nibble) : Statement (.subn x y) :=
  fun _ => ⟨by decide, selects_any ((mask_xyn 0x8 x y 0x7).trans (by decide))⟩

theorem shl (x y : Nibble) : Statement (.shl x y) :=
  fun _ => ⟨by decide, selects_any ((mask_xyn 0x8 x y 0xe).trans (by decide))⟩

theorem sneReg (x y : Nibble) : Statement (.sneReg x y) :=
  fun _ => ⟨by decide, selects_any ((mask_xyn 0x9 x y 0x0).trans (by decide))⟩

theorem ldI (nnn : Addr12) : Statement (.ldI nnn) :=
  fun _ => ⟨by decide, selects_any ((mask_nnn 0xA nnn).trans (by decide))⟩

theorem jpV0 (nnn : Addr12) : Statement (.jpV0 nnn) :=
  fun _ => ⟨by decide, selects_any ((mask_nnn 0xB nnn).trans (by decide))⟩

theorem rnd (x : Nibble) (nn : Byte) : Statement (.rnd x nn) :=
  fun _ => ⟨by decide, selects_any ((mask_xnn 0xC x nn).trans (by decide))⟩

theorem drw (x y n : Nibble) : Statement (.drw x y n) :=
  fun _ => ⟨by decide, selects_any ((mask_drw 0xD x y n).trans (by decide))⟩

theorem skp (x : Nibble) : Statement (.skp x) :=
  fun _ => ⟨by decide, selects_any ((mask_xss 0xE x 0x9E).trans (by decide))⟩

theorem sknp (x : Nibble) : Statement (.sknp x) :=
  fun _ => ⟨by decide, selects_any ((mask_xss 0xE x 0xA1).trans (by decide))⟩

theorem ldVxDt (x : Nibble) : Statement (.ldVxDt x) :=
  fun h => ⟨by decide, selects_userF 0x07 (by decide) h⟩

theorem ldVxK (x : Nibble) : Statement (.ldVxK x) :=
  fun h => ⟨by decide, selects_userF 0x0A (by decide) h⟩

theorem ldDtVx (x : Nibble) : Statement (.ldDtVx x) :=
  fun h => ⟨by decide, selects_userF 0x15 (by decide) h⟩

theorem ldStVx (x : Nibble) : Statement (.ldStVx x) :=
  fun h => ⟨by decide, selects_userF 0x18 (by decide) h⟩

theorem addI (x : Nibble) : Statement (.addI x) :=
  fun h => ⟨by decide, selects_userF 0x1E (by decide) h⟩

theorem ldF (x : Nibble) : Statement (.ldF x) :=
  fun h => ⟨by decide, selects_userF 0x29 (by decide) h⟩

theorem ldB (x : Nibble) : Statement (.ldB x) :=
  fun h => ⟨by decide, selects_userF 0x33 (by decide) h⟩

theorem storeRegs (x : Nibble) : Statement (.storeRegs x) :=
  fun h => ⟨by decide, selects_userF 0x55 (by decide) h⟩

theorem loadRegs (x : Nibble) : Statement (.loadRegs x) :=
  fun h => ⟨by decide, selects_userF 0x65 (by decide) h⟩

theorem kreset : Statement .kreset := fun _ => ⟨by decide, by decide⟩

theorem kioreset : Statement .kioreset := fun _ => ⟨by decide, by decide⟩

theorem kshell : Statement .kshell := fun _ => ⟨by decide, by decide⟩

theorem kload : Statement .kload := fun _ => ⟨by decide, by decide⟩

theorem ksys (nn : Byte) : Statement (.ksys nn) := by
  intro h
  refine ⟨by decide, ?_⟩
  have hn : (0xF0#8 ++ nn : BitVec 16).extractLsb' 0 8 = nn := fieldNN_ksys nn
  simpa [Row.selects, RowConstraint.holds, encode, mask_ksys, hn, Instr.wellFormed] using h

theorem unknown (op : Word) : Statement (.unknown op) := fun h => by
  simpa [Instr.wellFormed, encode, rowOf] using h

end Sys2Proof.Laws.RowMatch
end

