-- ==== Sys2Proof/Laws/Step.lean ====
section
/-! SUPPORT. Everything a cycle, a host event and a step can do, once, for later proofs to cite. -/

namespace Sys2Proof.Machine

/-! ### Fetch -/

theorem fetch_of_accessible {s : State} (h : s.Accessible s.pc.toNat 2) :
    fetch s = .ok (joinBytes (s.readByte s.pc.toNat) (s.readByte (s.pc.toNat + 1))) := by
  simp [fetch, (s.checkRun_eq_none 2 _).mpr h]

theorem fetch_of_fault {s : State} {f : FatalFault} (h : s.FirstFault s.pc.toNat 2 f) :
    fetch s = .error f := by
  simp [fetch, (s.checkRun_eq_some f 2 _).mpr h]

/-! ### Frames of the small updates -/

/-- An update of the output alone. -/
theorem sameExcept_output (s : State) (o : Output) : SameExcept [.output] s { s with output := o } := by
  intro p hp
  cases p <;> simp at hp <;> first | rfl | exact fun _ => rfl

/-- Taking a fatal fault commits nothing of the cycle (R111). -/
theorem haltedBy_halt (f : FatalFault) (s : State) : HaltedBy f s (s.halt f) := by
  refine ⟨rfl, rfl, rfl, fun p hp => ?_⟩
  cases p <;> simp at hp <;> first | rfl | exact fun _ => rfl

/-- In User mode there is no boot exit (R123). -/
theorem State.bootExit_of_user {s : State} (h : s.mode = .user) : s.bootExit = s := by
  rcases s.bootExit_cases with ⟨-, hk, -, -⟩ | ⟨-, e⟩
  · simp [h] at hk
  · exact e

/-- After a fatal fault there is no boot exit (R123). -/
theorem State.bootExit_halt (f : FatalFault) (s : State) : (s.halt f).bootExit = s.halt f := by
  rcases (s.halt f).bootExit_cases with ⟨h, -⟩ | ⟨-, e⟩
  · simp at h
  · exact e

/-! ### The cycle -/

/-- A cycle that goes on took a fatal fault, or ran an instruction and then the boot-exit test. -/
theorem runCycle_cases {s t : State} (h : runCycle s = .next t) :
    (∃ f, t = s.halt f) ∨
    (∃ op u, fetch s = .ok op ∧ exec (decodeWord op) s = .next u ∧ Carried s u ∧ t = u.bootExit) := by
  unfold runCycle at h
  cases hf : fetch s with
  | error f =>
    rw [hf] at h
    cases h
    exact .inl ⟨f, rfl⟩
  | ok op =>
    rw [hf] at h
    rcases exec_endsWell (decodeWord op) s with ⟨f, e⟩ | ⟨u, e, c⟩ | ⟨e, -⟩
    · simp only [e, endOfCycle, State.bootExit_halt, Host.Outcome.next.injEq] at h
      exact .inl ⟨f, h.symm⟩
    · simp only [e, endOfCycle, Host.Outcome.next.injEq] at h
      exact .inr ⟨op, u, rfl, e, c, h.symm⟩
    · simp [e, endOfCycle] at h

/-- The `Cycle` event is idle when halted and runs a cycle in the two running phases. -/
theorem cycle_cases {s t : State} (h : cycle s = .next t) :
    (s.phase = .halted ∧ t = { s with output := Output.ofCycle .idle }) ∨
    (s.Running ∧ runCycle s = .next t) := by
  unfold cycle at h
  split at h
  · cases h
  · next hp => cases h; exact .inl ⟨hp, rfl⟩
  · next hp => exact .inr ⟨.inl hp, h⟩
  · next hp => exact .inr ⟨.inr hp, h⟩

/-! ### The host events -/

/-- A `Load` reports and changes nothing, or copies an image that fits and sets `pc` (R143). -/
theorem State.load_cases (s : State) (sel : LoadSelector) :
    (∃ o, s.load sel = { s with output := o }) ∨
    (s.phase = .userRunning ∧ ∃ e o, s.findEntry sel = some e ∧ e.bytes.length ≤ loadLimit ∧
      s.load sel = { s.copyImage e.bytes with pc := 0x200, output := o }) := by
  unfold State.load
  split
  · next e hr he =>
    unfold State.loadResult at hr
    split at hr
    · cases hr
    · next hp =>
      rw [he] at hr
      simp only at hr
      split at hr
      · cases hr
      · next hl => exact .inr ⟨by simpa using hp, e, _, he, Nat.le_of_not_lt hl, rfl⟩
  · exact .inl ⟨_, rfl⟩

/-- A `HaltRequest` halts a running machine and otherwise changes nothing (R124). -/
theorem State.haltRequest_cases (s : State) :
    (s.Running ∧
      s.haltRequest = { s with phase := .halted, haltCause := .exitRequest, output := Output.nothing }) ∨
    (¬ s.Running ∧ s.haltRequest = { s with output := Output.nothing }) := by
  unfold State.haltRequest State.Running
  split <;> simp_all

/-- An event that needs a `Reset` before it has its effect in every other phase (R17). -/
theorem whenInitialized_cases {s t u : State} (h : whenInitialized s t = .next u) :
    s.phase ≠ .uninitialized ∧ u = t := by
  unfold whenInitialized at h
  split at h <;> cases h <;> simp_all

theorem whenInitialized_of_ne {s : State} (h : s.phase ≠ .uninitialized) (t : State) :
    whenInitialized s t = .next t := by
  unfold whenInitialized
  split <;> simp_all

/-! ### The step -/

/-- With no host event waiting a step is a `Cycle` (log 9). -/
theorem step_of_empty {s : State} (h : s.inbox = []) : step s = cycle s := by
  unfold step nextEvent
  rw [h]
  rfl

/-- A waiting host event goes first (log 9). -/
theorem step_of_event {s : State} {e : HostEvent} {rest : List HostEvent} (h : s.inbox = e :: rest) :
    step s = applyEvent e { s with inbox := rest } := by
  unfold step nextEvent
  rw [h]

/-- A running machine runs a cycle on the `Cycle` event (R49). -/
theorem applyEvent_cycle_of_running {s : State} (h : s.Running) : applyEvent .cycle s = runCycle s := by
  rcases h with h | h <;> simp [applyEvent, cycle, h]

/-- A halted machine is idle on the `Cycle` event (R120). -/
theorem applyEvent_cycle_of_halted {s : State} (h : s.phase = .halted) :
    applyEvent .cycle s = .next { s with output := Output.ofCycle .idle } := by
  simp [applyEvent, cycle, h]

/-- A running machine with no host event waiting runs a cycle. -/
theorem step_of_running {s : State} (hi : s.inbox = []) (hr : s.Running) : step s = runCycle s :=
  (step_of_empty hi).trans (applyEvent_cycle_of_running hr)

/-- A halted machine with no host event waiting is idle. -/
theorem step_of_halted {s : State} (hi : s.inbox = []) (hp : s.phase = .halted) :
    step s = .next { s with output := Output.ofCycle .idle } :=
  (step_of_empty hi).trans (applyEvent_cycle_of_halted hp)

/-- A property of states that every event keeps, every step keeps. -/
theorem step_induction {P : State → State → Prop}
    (hbox : ∀ (s t : State) (rest : List HostEvent), P { s with inbox := rest } t → P s t)
    (hev : ∀ (e : HostEvent) (s t : State), applyEvent e s = .next t → P s t)
    {s t : State} (h : step s = .next t) : P s t := by
  unfold step nextEvent at h
  split at h
  · exact hev _ _ _ h
  · exact hbox s t _ (hev _ _ _ h)

end Sys2Proof.Machine
end

