-- ==== Sys2Proof/Tests/Slice0.lean ====
section
/-! SUPPORT. Tests: the WellFormed smoke, words written out bit by bit from spec 30_encoding.md R50, one-step
tests from the vectors of spec/95_test_vectors.md (their ids stand in the comments), and for every obligation
with hypotheses a witness that meets them. -/

namespace Sys2Proof.Tests

open Sys2Proof Sys2Proof.Machine

/-! ### Small states -/

/-- The base state of the vectors, without the font: User mode at 0x200. -/
def user : State := { State.reset with mode := .user, phase := .userRunning, pc := 0x200 }

/-- The state the "K" vectors start from: Kernel mode at 0x1010. -/
def kern : State := { State.reset with pc := 0x1010 }

/-- A halted machine. -/
def halted : State := user.halt .stackOverflow

/-- A machine before its first Reset. -/
def fresh : State := { State.reset with phase := .uninitialized }

/-- With `V[1]` and `V[2]` set. -/
def withV12 (s : State) (a b : Byte) : State := (s.writeV 1 a).writeV 2 b

/-- With bytes in memory. -/
def withBytes (s : State) (a : Nat) (bs : List Byte) : State := { s with mem := s.mem.writeBytes a bs }

/-- The disk of the TK vectors: slots 0 and 1, slot 2 absent, slot 3 too large. -/
def diskParams : Params :=
  { defaultParams with
    disk := #v[some ⟨"A", [0x00, 0xE0, 0x12, 0x00]⟩, some ⟨"Tetris", [1, 2, 3, 4, 5, 6, 7, 8, 9, 10]⟩, none,
      some ⟨"Big", List.replicate 4609 0⟩] }

/-- The state of the "K" vectors with that disk. -/
def kernDisk : State := { kern with params := diskParams }

/-- A disk with an image that fills memory from 0x200 to the end, and an empty one. -/
def fullDisk : State :=
  { user with
    params := { defaultParams with
      disk := #v[some ⟨"Full", List.replicate 4608 0xAB⟩, none, none, some ⟨"Empty", []⟩] } }

/-- Kernel mode with that disk: `V[0]` names slot 0, its image fills memory from 0x200 to the end. -/
def kernFull : State := { kern with params := fullDisk.params }

/-- The disk of the TK vectors in User mode. -/
def userDisk : State := { user with params := diskParams }

/-- What is seen of the next state after one step that runs the word placed at `pc`. -/
def seen {α : Type} (s : State) (w : Word) (f : State → α) : Option α :=
  match step (s.placeWord w) with
  | .next t => some (f t)
  | .fault _ => none
  | .refused _ => none

/-- What is seen of the next state after a host event. -/
def seenEvent {α : Type} (s : State) (e : HostEvent) (f : State → α) : Option α :=
  match applyEvent e s with
  | .next t => some (f t)
  | .fault _ => none
  | .refused _ => none

/-! ### WellFormed smoke: an ill-formed term for each check -/

theorem test_wf_refuses_x_zero :
    (Instr.ldVxDt 0).wellFormed = false ∧ (Instr.ldVxK 0).wellFormed = false ∧
    (Instr.ldDtVx 0).wellFormed = false ∧ (Instr.ldStVx 0).wellFormed = false ∧
    (Instr.addI 0).wellFormed = false ∧ (Instr.ldF 0).wellFormed = false ∧
    (Instr.ldB 0).wellFormed = false ∧ (Instr.storeRegs 0).wellFormed = false ∧
    (Instr.loadRegs 0).wellFormed = false := by decide

theorem test_wf_refuses_defined_ids :
    (Instr.ksys 0x00).wellFormed = false ∧ (Instr.ksys 0x04).wellFormed = false ∧
    (Instr.ksys 0x06).wellFormed = false ∧ (Instr.ksys 0x08).wellFormed = false := by decide

theorem test_wf_refuses_known_words :
    (Instr.unknown 0x00E0).wellFormed = false ∧ (Instr.unknown 0x5AB0).wellFormed = false ∧
    (Instr.unknown 0xF107).wellFormed = false ∧ (Instr.unknown 0xF002).wellFormed = false := by decide

theorem test_wf_accepts :
    (Instr.ldVxDt 1).wellFormed = true ∧ (Instr.loadRegs 0xF).wellFormed = true ∧
    (Instr.ksys 0x65).wellFormed = true ∧ (Instr.unknown 0x0000).wellFormed = true ∧
    (Instr.skp 0).wellFormed = true := by decide

/-! ### Decoding: words written from the patterns of R50 -/

theorem test_decode_family0 : decodeWord 0x00E0 = .cls ∧ decodeWord 0x00EE = .ret ∧
    decodeWord 0x0000 = .unknown 0x0000 ∧ decodeWord 0x0123 = .unknown 0x0123 := by decide

theorem test_decode_jumps : decodeWord 0x1ABC = .jp 0xABC ∧ decodeWord 0x220A = .call 0x20A ∧
    decodeWord 0xBFFF = .jpV0 0xFFF := by decide

theorem test_decode_skips : decodeWord 0x3A42 = .seImm 0xA 0x42 ∧ decodeWord 0x4B43 = .sneImm 0xB 0x43 ∧
    decodeWord 0x5AB0 = .seReg 0xA 0xB ∧ decodeWord 0x5AB1 = .unknown 0x5AB1 ∧
    decodeWord 0x9AB0 = .sneReg 0xA 0xB ∧ decodeWord 0x9AB5 = .unknown 0x9AB5 := by decide

theorem test_decode_immediates : decodeWord 0x6A42 = .ldImm 0xA 0x42 ∧ decodeWord 0x71FF = .addImm 1 0xFF ∧
    decodeWord 0xA2F0 = .ldI 0x2F0 ∧ decodeWord 0xC30F = .rnd 3 0x0F := by decide

theorem test_decode_alu_low : decodeWord 0x8120 = .ldReg 1 2 ∧ decodeWord 0x8121 = .orReg 1 2 ∧
    decodeWord 0x8122 = .andReg 1 2 ∧ decodeWord 0x8123 = .xorReg 1 2 ∧ decodeWord 0x8124 = .addReg 1 2 := by
  decide

theorem test_decode_alu_high : decodeWord 0x8125 = .subReg 1 2 ∧ decodeWord 0x8126 = .shr 1 2 ∧
    decodeWord 0x8127 = .subn 1 2 ∧ decodeWord 0x812E = .shl 1 2 ∧ decodeWord 0x8128 = .unknown 0x8128 := by
  decide

theorem test_decode_draw_keys : decodeWord 0xD125 = .drw 1 2 5 ∧ decodeWord 0xE39E = .skp 3 ∧
    decodeWord 0xE4A1 = .sknp 4 ∧ decodeWord 0xE39F = .unknown 0xE39F := by decide

theorem test_decode_family_f : decodeWord 0xF307 = .ldVxDt 3 ∧ decodeWord 0xF50A = .ldVxK 5 ∧
    decodeWord 0xF115 = .ldDtVx 1 ∧ decodeWord 0xF118 = .ldStVx 1 ∧ decodeWord 0xF11E = .addI 1 := by decide

theorem test_decode_family_f_memory : decodeWord 0xF129 = .ldF 1 ∧ decodeWord 0xF133 = .ldB 1 ∧
    decodeWord 0xF255 = .storeRegs 2 ∧ decodeWord 0xF365 = .loadRegs 3 ∧
    decodeWord 0xF301 = .unknown 0xF301 := by decide

theorem test_decode_syscalls : decodeWord 0xF000 = .kreset ∧ decodeWord 0xF004 = .kioreset ∧
    decodeWord 0xF006 = .kshell ∧ decodeWord 0xF008 = .kload ∧ decodeWord 0xF065 = .ksys 0x65 := by decide

/-- The high byte comes first (R32, R45); one byte is no instruction. -/
theorem test_decode_bytes : decode [0x61, 0xEA, 0xA3] = .ok (.ldImm 1 0xEA, [0xA3]) ∧
    decode [0x61] = .error (.truncated 1) := ⟨rfl, rfl⟩

theorem test_decode_table_word : decodeTableWord 16 0xA2F0 = some (.ldI 0x2F0) := by decide

theorem test_encode : encode (.drw 1 2 5) = 0xD125 ∧ encode (.ksys 0x65) = 0xF065 ∧
    encode (.loadRegs 3) = 0xF365 := by decide

/-- The default font: glyph 5 is `F0 80 F0 10 F0` at 25 bytes in, glyph F ends in 80 (R24). -/
theorem test_font : (defaultParams.fontTable.toList.drop 25).take 5 = [0xF0, 0x80, 0xF0, 0x10, 0xF0] ∧
    defaultParams.fontTable.toList.getLast? = some 0x80 := by decide

/-! ### One step each, from the vectors of spec/95_test_vectors.md -/

/-- T0.1. -/
theorem test_cls : seen { user with fb := drawPixel (user.fb, false) true 63 31 |>.1 } 0x00E0
    (fun t => (t.fb, t.pc)) = some (Vector.replicate 32 0, 0x202) := by decide

/-- T0.2. -/
theorem test_ret : seen { user with pc := 0x20C, sp := 2, stack := (user.stack.set 0 0x206).set 1 0xABC } 0x00EE
    (fun t => (t.sp, t.pc, t.stack[1])) = some (1, 0xABC, 0xABC) := by decide

/-- T0.3. -/
theorem test_ret_underflow : seen user 0x00EE (fun t => (t.phase, t.haltCause.code, t.pc, t.sp)) =
    some (.halted, 2, 0x200, 0) := by decide

/-- T1.2, an odd target. -/
theorem test_jp : seen user 0x1201 (fun t => t.pc) = some 0x201 := by decide

/-- T1.5, the boot exit replaces the target. -/
theorem test_jp_kernel : seen kern 0x1300 (fun t => (t.pc, t.mode, t.phase)) =
    some (0x200, .user, .userRunning) := by decide

/-- T2.2. -/
theorem test_call : seen { user with sp := 15 } 0x2300 (fun t => (t.stack[15], t.sp, t.pc)) =
    some (0x202, 16, 0x300) := by decide

/-- T2.3. -/
theorem test_call_overflow : seen { user with sp := 16 } 0x2300
    (fun t => (t.phase, t.haltCause.code, t.pc, t.sp)) = some (.halted, 1, 0x200, 16) := by decide

/-- TB.1. -/
theorem test_jpV0 : seen (user.writeV 0 0xFF) 0xBFFF (fun t => t.pc) = some 0x10FE := by decide

/-- T3.1, T3.2. -/
theorem test_seImm : seen (user.writeV 0xA 0x42) 0x3A42 (fun t => t.pc) = some 0x204 ∧
    seen (user.writeV 0xA 0x43) 0x3A42 (fun t => t.pc) = some 0x202 := by decide

/-- T4.1, T4.2. -/
theorem test_sneImm : seen (user.writeV 0xA 0x42) 0x4A42 (fun t => t.pc) = some 0x202 ∧
    seen (user.writeV 0xA 0x43) 0x4A42 (fun t => t.pc) = some 0x204 := by decide

/-- T5.2, T5.3. -/
theorem test_seReg : seen ((user.writeV 0xA 9).writeV 0xB 8) 0x5AB0 (fun t => t.pc) = some 0x202 ∧
    seen (user.writeV 0xA 9) 0x5AA0 (fun t => t.pc) = some 0x204 := by decide

/-- T9.1, T9.3. -/
theorem test_sneReg : seen ((user.writeV 0xA 9).writeV 0xB 8) 0x9AB0 (fun t => t.pc) = some 0x204 ∧
    seen (user.writeV 0xA 9) 0x9AA0 (fun t => t.pc) = some 0x202 := by decide

/-- T6.1. -/
theorem test_ldImm : seen user 0x6F12 (fun t => (t.readV 0xF, t.pc)) = some (0x12, 0x202) := by decide

/-- T7.1. -/
theorem test_addImm : seen ((user.writeV 1 0xFF).writeV 0xF 1) 0x71FF (fun t => (t.readV 1, t.readV 0xF)) =
    some (0xFE, 1) := by decide

/-- TA.2. -/
theorem test_ldI : seen { user with regI := 0x1234 } 0xAFFF (fun t => t.regI) = some 0xFFF := by decide

/-- TC.1 with the draw left free. -/
theorem test_rnd : seen user 0xC3F0 (fun t => (t.readV 3, t.draws)) =
    some (Config.randomByte 0 &&& 0xF0, 1) := by rfl

/-- T8.0. -/
theorem test_ldReg : seen (user.writeV 1 0x77) 0x8F10 (fun t => t.readV 0xF) = some 0x77 := by decide

/-- T8.1 to T8.3. -/
theorem test_logic : seen ((withV12 user 0x0C 0x0A).writeV 0xF 1) 0x8121 (fun t => (t.readV 1, t.readV 0xF)) =
      some (0x0E, 1) ∧
    seen (withV12 user 0x0C 0x0A) 0x8122 (fun t => t.readV 1) = some 0x08 ∧
    seen (withV12 user 0x0C 0x0A) 0x8123 (fun t => t.readV 1) = some 0x06 := by decide

/-- T8.4a, T8.4e. -/
theorem test_addReg : seen (withV12 user 0xFF 0x01) 0x8124 (fun t => (t.readV 1, t.readV 0xF)) = some (0, 1) ∧
    seen ((user.writeV 0xF 0x10).writeV 1 0x20) 0x8F14 (fun t => t.readV 0xF) = some 0 := by decide

/-- T8.5a, T8.5b. -/
theorem test_subReg : seen (withV12 user 7 7) 0x8125 (fun t => (t.readV 1, t.readV 0xF)) = some (0, 1) ∧
    seen (withV12 user 5 7) 0x8125 (fun t => (t.readV 1, t.readV 0xF)) = some (0xFE, 0) := by decide

/-- T8.6a, T8.6c. -/
theorem test_shr : seen (withV12 user 4 0xFF) 0x8126 (fun t => (t.readV 1, t.readV 2, t.readV 0xF)) =
      some (2, 0xFF, 0) ∧
    seen (user.writeV 0xF 3) 0x8F06 (fun t => t.readV 0xF) = some 1 := by decide

/-- T8.7b, T8.7c. -/
theorem test_subn : seen (withV12 user 7 5) 0x8127 (fun t => (t.readV 1, t.readV 0xF)) = some (0xFE, 0) ∧
    seen (withV12 user 1 0xFF) 0x8127 (fun t => (t.readV 1, t.readV 0xF)) = some (0xFE, 1) := by decide

/-- T8.Ea, T8.Ec. -/
theorem test_shl : seen (withV12 user 0x40 0xFF) 0x812E (fun t => (t.readV 1, t.readV 2, t.readV 0xF)) =
      some (0x80, 0xFF, 0) ∧
    seen (user.writeV 0xF 0x81) 0x8F0E (fun t => t.readV 0xF) = some 1 := by decide

/-- TD.4: rows 30 and 31 in the last column, row 32 clipped. -/
theorem test_drw_clips :
    seen (withBytes (withV12 { user with regI := 0x300 } 0x3F 0x1E) 0x300 [0x80, 0x80, 0x80]) 0xD123
      (fun t => (t.fb[30], t.fb[31], t.fb[0], t.readV 0xF)) = some (1#64 <<< 63, 1#64 <<< 63, 0, 0) := by decide

/-- TD.2: four set cells hit, the two that were outside the sprite keep their values. -/
theorem test_drw_collides :
    seen (withBytes (withV12 { user with regI := 0x300, fb := ((user.fb.set 0 1).set 1 6).set 2 6 } 1 1) 0x300
      [0xC0, 0xC0]) 0xD122 (fun t => (t.fb[0], t.fb[1], t.fb[2], t.readV 0xF)) = some (1, 0, 0, 1) := by decide

/-- TE.1, TE.5. -/
theorem test_skp : seen ({ user with keys := 0x8000 }.writeV 3 0x0F) 0xE39E (fun t => t.pc) = some 0x204 ∧
    seen ({ user with keys := 1 }.writeV 3 0x10) 0xE39E (fun t => (t.phase, t.haltCause.code, t.pc)) =
      some (.halted, 5, 0x200) := by decide

/-- TE.3, TE.4. -/
theorem test_sknp : seen { user with keys := 1 } 0xE3A1 (fun t => t.pc) = some 0x202 ∧
    seen user 0xE3A1 (fun t => t.pc) = some 0x204 := by decide

/-- TF.1. -/
theorem test_ldVxDt : seen { user with dt := 42 } 0xF307 (fun t => (t.readV 3, t.dt)) = some (0x2A, 42) := by
  decide

/-- TF.3, TF.4. -/
theorem test_ldVxK : seen ({ user with pc := 0x230 }.writeV 5 0xEE) 0xF50A
      (fun t => (t.readV 5, t.pc, t.output.report)) = some (0xEE, 0x230, .cycle .repeat_) ∧
    seen { user with pc := 0x230, keys := 0x0088 } 0xF50A (fun t => (t.readV 5, t.pc)) = some (3, 0x232) := by
  decide

/-- TF.6, TF.7. -/
theorem test_timers : seen ({ user with dt := 3 }.writeV 1 0xFF) 0xF115 (fun t => t.dt) = some 255 ∧
    seen { user with st := 9 } 0xF118 (fun t => t.st) = some 0 := by decide

/-- TF.8. -/
theorem test_addI : seen ({ user with regI := 0xFFFF }.writeV 1 2) 0xF11E (fun t => (t.regI, t.readV 0xF)) =
    some (1, 0) := by decide

/-- TF.11, TF.12. -/
theorem test_ldF : seen (user.writeV 1 0x0F) 0xF129 (fun t => t.regI) = some 0x9B ∧
    seen (user.writeV 1 0xFF) 0xF129 (fun t => t.regI) = some 0x54B := by decide

/-- TF.16. -/
theorem test_ldB : seen ({ user with regI := 0x300 }.writeV 1 0x6D) 0xF133
    (fun t => (t.readByte 0x300, t.readByte 0x301, t.readByte 0x302, t.regI)) = some (1, 0, 9, 0x300) := by decide

/-- TF.17: nothing is written. -/
theorem test_ldB_fault : seen ({ user with regI := 0xFFE }.writeV 1 0x7B) 0xF133
    (fun t => (t.output.report, t.readByte 0xFFE, t.pc)) =
    some (.cycle (.fault (.privilegeViolationAt 0x1000)), 0, 0x200) := by decide

/-- TF.22. -/
theorem test_storeRegs : seen ({ user with pc := 0x1FE, regI := 0x200 }.writeV 0 0x12) 0xF155
    (fun t => (t.readByte 0x200, t.readByte 0x201, t.pc, t.regI)) = some (0x12, 0, 0x200, 0x200) := by decide

/-- TF.21: no partial store. -/
theorem test_storeRegs_fault : seen ({ user with regI := 0xFFF }.writeV 0 0xAA) 0xF155
    (fun t => (t.haltCause.code, t.readByte 0xFFF)) = some (4, 0) := by decide

/-- The example of R96. -/
theorem test_loadRegs : seen (withBytes ({ user with regI := 0x300 }.writeV 4 0x77) 0x300 [2, 3, 4, 0]) 0xF365
    (fun t => (t.readV 0, t.readV 1, t.readV 2, t.readV 3, t.readV 4)) = some (2, 3, 4, 0, 0x77) := by decide

/-- TF.25. -/
theorem test_loadRegs_fault : seen { user with regI := 0x1400 } 0xF165
    (fun t => (t.output.report, t.haltCause.code)) =
    some (.cycle (.fault (.outOfBoundsAccess 0x1400)), 3) := by decide

/-- TK.1. -/
theorem test_kreset : seen (withBytes { kern with regI := 0x123, sp := 3, dt := 5 } 0xFFF [0x77]) 0xF000
      (fun t => (t.regI, t.sp, t.dt, t.pc)) = some (0, 0, 5, 0x1012) ∧
    seen (withBytes kern 0xFFF [0x77]) 0xF000
      (fun t => [t.readByte 0xFFF, t.readByte 0x50, t.readByte 0x9F, t.readByte 0xA0, t.readByte 0x1010]) =
      some [0, 0xF0, 0x80, 0, 0xF0] := by decide +kernel

/-- TK.11. -/
theorem test_kreset_user : seen user 0xF000 (fun t => (t.phase, t.output.report)) =
    some (.halted, .cycle (.fault (.privilegeViolationWord 0xF000))) := by decide

/-- TK.2. -/
theorem test_kioreset : seen ({ kern with dt := 5, st := 6, keys := 0x8002, fb := kern.fb.set 31 1 }.writeV 1 0x11)
    0xF004 (fun t => (t.dt, t.st, t.keys, t.fb[31], t.readV 1, t.pc)) = some (0, 0, 0, 0, 0x11, 0x1012) := by
  decide

/-- TK.3. -/
theorem test_kshell : seen kern 0xF006 (fun t => (t.output, t.pc)) =
    some (⟨.cycle .ok, true⟩, 0x1012) := by decide

/-- TK.4. -/
theorem test_kload : seen ({ kern with params := diskParams }.writeV 0 1) 0xF008
    (fun t => (t.readByte 0x200, t.readByte 0x209, t.readByte 0x20A, t.pc, t.mode)) =
    some (1, 10, 0, 0x200, .user) := by decide

/-- TK.6. -/
theorem test_kload_absent : seen ({ kern with params := diskParams }.writeV 0 4) 0xF008
    (fun t => (t.output.report, t.pc, t.mode)) =
    some (.cycle (.diag (.diskEntryNotFound 4)), 0x1012, .kernel) := by decide

/-- TK.9, TK.14. -/
theorem test_ksys : seen kern 0xF00A (fun t => (t.output.report, t.pc)) =
      some (.cycle (.diag (.unknownOpcode 0xF00A 0x1010)), 0x1012) ∧
    seen user 0xF00A (fun t => t.haltCause.code) = some 4 := by decide

/-- T5.4. -/
theorem test_unknown : seen ((user.writeV 0xA 9).writeV 0xB 9) 0x5AB1 (fun t => (t.output.report, t.pc)) =
    some (.cycle (.diag (.unknownOpcode 0x5AB1 0x200)), 0x202) := by decide

/-- TX.1, TX.5. -/
theorem test_fetch_fault : seenEvent { user with pc := 0xFFF } .cycle (fun t => (t.output.report, t.pc)) =
      some (.cycle (.fault (.privilegeViolationAt 0x1000)), 0xFFF) ∧
    seenEvent { kern with pc := 0x13FF } .cycle (fun t => (t.output.report, t.pc)) =
      some (.cycle (.fault (.outOfBoundsAccess 0x1400)), 0x13FF) := by decide

/-- TX.4: the boot ends at the end of the kernel region. -/
theorem test_boot_exit : seen { kern with pc := 0x13FE } 0x6101 (fun t => (t.readV 1, t.pc, t.mode)) =
    some (1, 0x200, .user) := by decide

/-! ### Host events -/

/-- TT.1, TT.3. -/
theorem test_tick : seenEvent { user with dt := 2, st := 1 } .tick (fun t => (t.dt, t.st)) = some (1, 0) ∧
    seenEvent user .tick (fun t => (t.dt, t.st)) = some (0, 0) := by decide

/-- TH.1, TH.2. -/
theorem test_haltRequest : seenEvent user .haltRequest (fun t => (t.phase, t.haltCause.code)) =
      some (.halted, 6) ∧
    seenEvent halted .haltRequest (fun t => t.haltCause.code) = some 1 := by decide

/-- TL.1, TL.3. -/
theorem test_load : seenEvent { user with pc := 0x300, params := diskParams } (.load (.name "A"))
      (fun t => (t.readByte 0x201, t.pc, t.output)) = some (0xE0, 0x200, Output.ofLoad .ok) ∧
    seenEvent { user with params := diskParams } (.load (.index 2)) (fun t => t.output) =
      some (Output.ofLoad .notFound) := by decide

/-- TL.4, TL.6. -/
theorem test_load_refused : seenEvent { user with params := diskParams } (.load (.index 7)) (fun t => t.output) =
      some (Output.ofLoad .notFound) ∧
    seenEvent { kern with params := diskParams } (.load (.index 0)) (fun t => t.output) =
      some (Output.ofLoad .refused) := by decide

/-- TR.1, TY.0. -/
theorem test_reset_idle : seenEvent halted .reset (fun t => (t.pc, t.mode, t.phase, t.readByte 0x1006, t.readByte 0x50)) =
      some (0x1000, .kernel, .kernelBoot, 0x12, 0) ∧
    seenEvent halted .cycle (fun t => (t.output, t.pc)) = some (Output.ofCycle .idle, 0x200) := by decide

/-- A word placed by withFetchWord is the first instruction after reset. -/
theorem test_withFetchWord :
    (match step (State.reset.withFetchWord 16 0x6A42) with
      | .next t => some (t.readV 0xA, t.pc) | .fault _ => none | .refused _ => none) = some (0x42, 0x1002) := by
  decide

/-! ### Witnesses: states and operands that meet the hypotheses of each obligation -/

/-- DecodeOfEncode: well-formed instructions of the constrained rows. -/
theorem witness_decodeOfEncode : (Instr.ldB 1).wellFormed = true ∧ (Instr.ksys 0xFF).wellFormed = true ∧
    (Instr.unknown 0xFFFF).wellFormed = true := by decide

/-- UnknownExactlyWhenNoRow, UnknownIsNoOp: a word on each side. -/
theorem witness_unknown : isKnown 0x0000 = false ∧ isKnown 0xF165 = true ∧ isKnown 0xF065 = true := by decide

/-- RowsDisjoint: a row and a word that selects it, with each constraint. -/
theorem witness_rowsDisjoint :
    (⟨0xFF00, 0xF000, .idUndefined⟩ : Row) ∈ opcodeRows ∧ (⟨0xFF00, 0xF000, .idUndefined⟩ : Row).selects 0xF065 = true ∧
    (⟨0xF0FF, 0xF065, .xNonzero⟩ : Row) ∈ opcodeRows ∧ (⟨0xF0FF, 0xF065, .xNonzero⟩ : Row).selects 0xF165 = true ∧
    (⟨0xF000, 0x1000, .any⟩ : Row) ∈ opcodeRows ∧ (⟨0xF000, 0x1000, .any⟩ : Row).selects 0x1ABC = true := by decide

/-- StepRunsDecodedInstruction, first clause: a host event waits. -/
theorem witness_step_event : ({ user with inbox := [.tick, .cycle] } : State).inbox = .tick :: [.cycle] := rfl

/-- StepRunsDecodedInstruction: a Cycle waits in the inbox of a running and of a halted machine, and the step
goes to `applyEvent .cycle`. -/
theorem witness_step_waiting_cycle :
    ({ kern with inbox := [.cycle] } : State).inbox = .cycle :: [] ∧ ({ kern with inbox := [] } : State).Running ∧
    step { kern with inbox := [.cycle] } = applyEvent .cycle { kern with inbox := [] } ∧
    step { halted with inbox := [.cycle] } = applyEvent .cycle { halted with inbox := [] } :=
  ⟨rfl, .inl rfl, rfl, rfl⟩

/-- StepRunsDecodedInstruction: the last address User mode can fetch from. -/
theorem witness_step_user :
    ({ user with pc := 0xFFE } : State).inbox = [] ∧ ({ user with pc := 0xFFE } : State).Running ∧
    ({ user with pc := 0xFFE } : State).Accessible 0xFFE 2 ∧ (Instr.unknown 0).wellFormed = true ∧
    decode [({ user with pc := 0xFFE } : State).readByte 0xFFE, ({ user with pc := 0xFFE } : State).readByte 0xFFF] =
      .ok (.unknown 0, []) := by
  refine ⟨rfl, .inr rfl, ?_, by decide, rfl⟩
  show ∀ k : Nat, k < 2 → _
  decide

/-- StepRunsDecodedInstruction: the first instruction after reset. -/
theorem witness_step_reset :
    State.reset.inbox = [] ∧ State.reset.Running ∧ State.reset.Accessible 0x1000 2 ∧
    Instr.kreset.wellFormed = true ∧
    decode [State.reset.readByte 0x1000, State.reset.readByte 0x1001] = .ok (.kreset, []) := by
  refine ⟨rfl, .inl rfl, ?_, by decide, rfl⟩
  show ∀ k : Nat, k < 2 → _
  decide

/-- FetchFaultHalts: the first byte can be read and the second not, in both modes, and the first cannot. -/
theorem witness_fetchFault :
    ({ user with pc := 0xFFF } : State).Running ∧ ({ user with pc := 0xFFF } : State).inbox = [] ∧
    ({ user with pc := 0xFFF } : State).FirstFault 0xFFF 2 (.privilegeViolationAt 0x1000) ∧
    ({ kern with pc := 0x13FF } : State).Running ∧ ({ kern with pc := 0x13FF } : State).inbox = [] ∧
    ({ kern with pc := 0x13FF } : State).FirstFault 0x13FF 2 (.outOfBoundsAccess 0x1400) ∧
    ({ user with pc := 0x1401 } : State).Running ∧
    ({ user with pc := 0x1401 } : State).FirstFault 0x1401 2 (.outOfBoundsAccess 0x1401) := by
  refine ⟨.inr rfl, rfl, ⟨1, ?_⟩, .inl rfl, rfl, ⟨1, ?_⟩, .inr rfl, ⟨0, ?_⟩⟩ <;> decide

/-- UninitializedAcceptsOnlyReset. -/
theorem witness_uninitialized : fresh.phase = .uninitialized := rfl

/-- KernelCycleEndsInRangeOrUser: the boot exit at the two ends of the kernel range, in Kernel mode and not
halted (R123, D13). -/
theorem witness_bootExit :
    kern.phase ≠ .halted ∧ kern.mode = .kernel ∧
    ({ kern with pc := 0x0FFF } : State).bootExit =
      { kern with mode := .user, phase := .userRunning, pc := 0x200 } ∧
    ({ kern with pc := 0x1000 } : State).bootExit = { kern with pc := 0x1000 } ∧
    ({ kern with pc := 0x13FF } : State).bootExit = { kern with pc := 0x13FF } ∧
    ({ kern with pc := 0x1400 } : State).bootExit =
      { kern with mode := .user, phase := .userRunning, pc := 0x200 } :=
  ⟨by decide, rfl, rfl, rfl, rfl, rfl⟩

/-- KernelCycleEndsInRangeOrUser: outside the kernel range a machine halted in Kernel mode and one in User mode
stay as they are. -/
theorem witness_bootExit_identity :
    ({ kern with phase := .halted, haltCause := .exitRequest, pc := 0x0FFF } : State).phase = .halted ∧
    ({ kern with phase := .halted, haltCause := .exitRequest, pc := 0x0FFF } : State).bootExit.pc = 0x0FFF ∧
    user.mode = .user ∧ user.bootExit = user := ⟨rfl, rfl, rfl, rfl⟩

/-- KernelCycleEndsInRangeOrUser: a cycle that stays, one that exits, and a Cycle event applied with another
host event waiting. -/
theorem witness_kernelCycle :
    (State.reset.inbox = [] ∧ State.reset.Running ∧ State.reset.mode = .kernel ∧
      ∃ t, step State.reset = .next t ∧ t.phase ≠ .halted ∧ t.mode = .kernel) ∧
    (∃ t, step { State.reset with pc := 0x1006 } = .next t ∧ t.phase ≠ .halted ∧ t.mode = .user) ∧
    ∃ t, applyEvent .cycle { State.reset with inbox := [.tick] } = .next t ∧ t.phase ≠ .halted := by
  refine ⟨⟨rfl, .inl rfl, rfl, _, rfl, ?_⟩, ⟨_, rfl, ?_⟩, _, rfl, ?_⟩ <;> decide

/-- UserModeIsPermanent, ParametersAreFixed, UserCycleKeepsKernelRegion: a User-mode step. -/
theorem witness_userStep : user.mode = .user ∧ user.inbox = [] ∧ user.inbox.head? ≠ some .reset ∧
    ∃ t, step user = .next t := ⟨rfl, rfl, by decide, _, rfl⟩

/-- UserModeIsPermanent with a host event waiting. -/
theorem witness_userEvent : ({ user with inbox := [.load (.index 0)] } : State).inbox.head? ≠ some .reset ∧
    ∃ t, step { user with inbox := [.load (.index 0)] } = .next t := ⟨by decide, _, rfl⟩

/-- HaltedIsTerminal: a cycle, a Cycle event with another host event waiting, and a host event that waits. -/
theorem witness_halted : halted.phase = .halted ∧ halted.inbox = [] ∧ (∃ t, step halted = .next t) ∧
    ({ halted with inbox := [.tick] } : State).phase = .halted ∧
    ({ halted with inbox := [.tick] } : State).inbox.head? ≠ some .reset ∧
    ∃ t, step { halted with inbox := [.tick] } = .next t := ⟨rfl, rfl, ⟨_, rfl⟩, rfl, by decide, _, rfl⟩

/-- StepKeepsInvariant, InvariantStepGoesOn: the state after reset meets the invariant and steps. -/
theorem witness_inv_reset : State.reset.Inv ∧ State.reset.phase ≠ .uninitialized ∧
    ∃ t, step State.reset = .next t := by
  refine ⟨⟨?_, ?_, ?_, ?_, ?_, ?_, ?_, ?_⟩, ?_, _, rfl⟩ <;> decide

/-- StepKeepsInvariant at the bounds: a full stack, the highest `pc`, User mode. -/
theorem witness_inv_bounds :
    ({ user with pc := 0x1402, sp := 16, stack := Vector.replicate 16 0x1400 } : State).Inv ∧
    ∃ t, step { user with pc := 0x1402, sp := 16, stack := Vector.replicate 16 0x1400 } = .next t := by
  refine ⟨⟨?_, ?_, ?_, ?_, ?_, ?_, ?_, ?_⟩, _, rfl⟩ <;> decide

/-- TickCountsDown, PortsTouchOnlyTheirField: running and halted. -/
theorem witness_initialized : user.phase ≠ .uninitialized ∧ halted.phase ≠ .uninitialized := by decide

/-- HaltRequestHalts: both clauses. -/
theorem witness_haltRequest : user.Running ∧ kern.Running ∧ halted.phase = .halted :=
  ⟨.inr rfl, .inl rfl, rfl⟩

/-- LoadCopiesImage: the lowest and the highest slot, an image of exactly 4,608 bytes, and an empty one. -/
theorem witness_load : (0 : Nat) < 4 ∧ (3 : Nat) < 4 ∧ fullDisk.phase = .userRunning ∧
    fullDisk.findEntry (.index 0) = some ⟨"Full", List.replicate 4608 0xAB⟩ ∧
    (DiskEntry.mk "Full" (List.replicate 4608 0xAB)).bytes.length ≤ 4608 ∧
    fullDisk.findEntry (.index 3) = some ⟨"Empty", []⟩ ∧ (DiskEntry.mk "Empty" []).bytes.length ≤ 4608 :=
  ⟨by decide, by decide, rfl, rfl, Nat.le_of_eq List.length_replicate, rfl, by decide⟩

/-- LoadCopiesImage by name: slots 1 and 3, the highest, and no other slot bears the name. -/
theorem witness_loadByName :
    userDisk.params.disk[1] = some ⟨"Tetris", [1, 2, 3, 4, 5, 6, 7, 8, 9, 10]⟩ ∧
    (∀ (k : Nat) (hk : k < 4) (d : DiskEntry), userDisk.params.disk[k]'hk = some d → d.name = "Tetris" → k = 1) ∧
    fullDisk.params.disk[3] = some ⟨"Empty", []⟩ ∧
    (∀ (k : Nat) (hk : k < 4) (d : DiskEntry), fullDisk.params.disk[k]'hk = some d → d.name = "Empty" → k = 3) := by
  refine ⟨rfl, ?_, rfl, ?_⟩ <;> intro k hk d hd hn <;> match k, hk with
  | 0, _ => cases hd; simp at hn
  | 1, _ => cases hd <;> rfl
  | 2, _ => cases hd
  | 3, _ => cases hd; first | rfl | simp at hn

/-- LoadFailureChangesNothing: index 4, and a name no entry bears. -/
theorem witness_loadNoEntry : 3 < 4 ∧
    ∀ (k : Nat) (hk : k < 4) (d : DiskEntry), userDisk.params.disk[k]'hk = some d → d.name ≠ "Breakout" := by
  refine ⟨by decide, ?_⟩
  intro k hk d hd
  match k, hk with
  | 0, _ => cases hd; decide
  | 1, _ => cases hd; decide
  | 2, _ => cases hd
  | 3, _ => cases hd; decide

/-- LoadFailureChangesNothing: absent by name and by index, too large, and the wrong phase. -/
theorem witness_loadFailure :
    userDisk.phase = .userRunning ∧ userDisk.findEntry (.name "Breakout") = none ∧
    userDisk.findEntry (.index 4) = none ∧
    userDisk.findEntry (.index 3) = some ⟨"Big", List.replicate 4609 0⟩ ∧
    4608 < (DiskEntry.mk "Big" (List.replicate 4609 0)).bytes.length ∧
    halted.phase ≠ .userRunning ∧ kern.phase ≠ .userRunning :=
  ⟨rfl, by decide, rfl, rfl, by rw [List.length_replicate]; decide, by decide, by decide⟩

/-- AddressCheckByModeAndRange: the addresses where its clauses meet. -/
theorem witness_check : user.mode = .user ∧ kern.mode = .kernel ∧
    user.check 0x1400 = some (.outOfBoundsAccess 0x1400) ∧ kern.check 0x1400 = some (.outOfBoundsAccess 0x1400) ∧
    user.check 0x13FF = some (.privilegeViolationAt 0x13FF) ∧ kern.check 0x13FF = none ∧
    user.check 0x1000 = some (.privilegeViolationAt 0x1000) ∧ kern.check 0x1000 = none ∧
    user.check 0x0FFF = none ∧ kern.check 0 = none := by decide

/-- AccessFaultsHalt: runs that reach the kernel region or the end of memory after their first byte. -/
theorem witness_accessFaults :
    ({ user with regI := 0xFF8 } : State).FirstFault 0xFF8 (0xF : Nibble).toNat (.privilegeViolationAt 0x1000) ∧
    ({ user with regI := 0xFFE } : State).FirstFault 0xFFE 3 (.privilegeViolationAt 0x1000) ∧
    ({ kern with regI := 0x13FE } : State).FirstFault 0x13FE 3 (.outOfBoundsAccess 0x1400) ∧
    ({ user with regI := 0xFF1 } : State).FirstFault 0xFF1 ((0xF : Nibble).toNat + 1)
      (.privilegeViolationAt 0x1000) ∧
    ({ user with regI := 0xFFFF } : State).FirstFault 0xFFFF ((0 : Nibble).toNat + 1)
      (.outOfBoundsAccess 0xFFFF) := by
  refine ⟨⟨8, ?_⟩, ⟨2, ?_⟩, ⟨2, ?_⟩, ⟨15, ?_⟩, ⟨0, ?_⟩⟩ <;> decide

/-- AccessFaultsHalt, the halt causes: a state each kind of access fault leaves. -/
theorem witness_accessFaultCodes :
    HaltedBy (.outOfBoundsAccess 0x1400) kern (kern.halt (.outOfBoundsAccess 0x1400)) ∧
    HaltedBy (.privilegeViolationAt 0x1000) user (user.halt (.privilegeViolationAt 0x1000)) := by
  refine ⟨⟨rfl, rfl, rfl, fun p hp => ?_⟩, rfl, rfl, rfl, fun p hp => ?_⟩ <;>
    cases p <;> simp at hp <;> first | rfl | exact fun _ => rfl

/-- FaultCommitsNothing: an instruction that halts a running machine. -/
theorem witness_faultCommitsNothing : user.Running ∧ ∃ t, exec .ret user = .next t ∧ t.phase = .halted :=
  ⟨.inr rfl, _, rfl, rfl⟩

/-- InstructionsWriteOnlyTheirParts, OnlyFlagWritersChangeVF: an instruction that completes, and one that
writes `V[14]`. -/
theorem witness_writes : (∃ t, exec (.ldImm 0xE 5) user = .next t ∧ t.phase ≠ .halted) ∧
    writesVF (.ldImm 0xE 5) = false ∧ writesVF (.kload) = false := ⟨⟨_, rfl, by decide⟩, rfl, rfl⟩

/-- UserCycleLearnsNothingOfKernel: memories that differ at 0x1000, the lowest byte they may differ in. -/
theorem witness_noninterference :
    (∀ a : Nat, a < 0x1000 → Memory.read [(0x1000, 0x55)] a = user.mem.read a) ∧
    Memory.read [(0x1000, 0x55)] 0x1000 ≠ user.mem.read 0x1000 ∧ user.inbox = [] ∧ user.mode = .user := by
  refine ⟨fun a h => ?_, by decide, rfl, rfl⟩
  show (if a = 0x1000 then _ else _) = _
  rw [if_neg (by omega)]
  rfl

/-- RetPops: one entry in use, and sixteen. -/
theorem witness_ret : ({ user with sp := 1 } : State).sp.toNat = 0 + 1 ∧ 0 < 16 ∧
    ({ user with sp := 16 } : State).sp.toNat = 15 + 1 ∧ 15 < 16 := by decide

/-- CallPushes, CallReturnRoundTrip: an empty stack, and room for one. -/
theorem witness_call : user.sp.toNat = 0 ∧ ({ user with sp := 15 } : State).sp.toNat = 15 ∧
    ∃ t, exec (.call 0x300) { user with sp := 15 } = .next t ∧ t.stack = t.stack ∧ t.sp = t.sp :=
  ⟨rfl, rfl, _, rfl, rfl, rfl⟩

/-- StackFaults: full, empty, and the two ends of the range no run reaches. -/
theorem witness_stackFaults : ({ user with sp := 16 } : State).sp = 16 ∧ user.sp = 0 ∧
    16 < ({ user with sp := 17 } : State).sp.toNat ∧ 16 < ({ user with sp := 255 } : State).sp.toNat ∧
    exec .ret { user with sp := 17 } = .fault (.noStackEntry 17) ∧
    exec (.call 0) { user with sp := 255 } = .fault (.noStackEntry 255) :=
  ⟨rfl, rfl, by decide, by decide, rfl, rfl⟩

/-- SkipOnKey and KeyNumberAboveFifteenHalts: key numbers 15 and 16. -/
theorem witness_keys : ((user.writeV 3 15).readV 3).toNat ≤ 15 ∧ 15 < ((user.writeV 3 16).readV 3).toNat := by
  decide

/-- LoadIndexAndGlyphAddress, TimerMoves: the register nearest to the excluded 0. -/
theorem witness_x_nonzero : (1 : Nibble) ≠ 0 ∧ (0xF : Nibble) ≠ 0 := by decide

/-- DrawXorsClippedSprite: no row at an address that does not exist, and fifteen rows up to 0x0FFF. -/
theorem witness_draw : ({ user with regI := 0x1400 } : State).Accessible 0x1400 (0 : Nibble).toNat ∧
    ({ user with regI := 0xFF1 } : State).Accessible 0xFF1 (0xF : Nibble).toNat := by
  constructor
  · show ∀ k : Nat, k < (0 : Nibble).toNat → _
    decide
  · show ∀ k : Nat, k < (0xF : Nibble).toNat → _
    decide

/-- DrawTwiceRestores: a first draw that completes. -/
theorem witness_drawTwice : (1 : Nibble) ≠ 0xF ∧ (2 : Nibble) ≠ 0xF ∧
    ({ user with regI := 0x300 } : State).Accessible 0x300 (2 : Nibble).toNat ∧
    ∃ t, exec (.drw 1 2 2) { user with regI := 0x300 } = .next t := by
  refine ⟨by decide, by decide, ?_, _, rfl⟩
  show ∀ k : Nat, k < (2 : Nibble).toNat → _
  decide

/-- KeyWait: no key down; key 15 alone; keys 3 and 7 with no key preferred. -/
theorem witness_keyWait : (∀ k : Nat, k < 16 → user.keys.getLsbD k = false) ∧
    ({ user with keys := 0x8000 } : State).keys.getLsbD 15 = true ∧
    ({ user with keys := 0x0088 } : State).keys.getLsbD 7 = true ∧ user.params.keyFirst = [] :=
  ⟨by decide, by decide, by decide, rfl⟩

/-- BcdStoresDigits: the last three bytes each mode may reach. -/
theorem witness_bcd : ({ user with regI := 0xFFD } : State).Accessible 0xFFD 3 ∧
    ({ kern with regI := 0x13FD } : State).Accessible 0x13FD 3 := by
  constructor
  · show ∀ k : Nat, k < 3 → _
    decide
  · show ∀ k : Nat, k < 3 → _
    decide

/-- StoreRegisterRun, LoadRegisterRun: all sixteen registers in the last bytes User mode may reach; the first
and the last register, and one past a shorter run. -/
theorem witness_registerRun : ({ user with regI := 0xFF0 } : State).Accessible 0xFF0 ((0xF : Nibble).toNat + 1) ∧
    (0 : Nibble).toNat ≤ (0xF : Nibble).toNat ∧ (0xF : Nibble).toNat ≤ (0xF : Nibble).toNat ∧
    (2 : Nibble).toNat < (3 : Nibble).toNat := by
  refine ⟨?_, by decide⟩
  show ∀ k : Nat, k < (0xF : Nibble).toNat + 1 → _
  decide

/-- KernelResetExtent, IoResetAndShell, UndefinedSyscallIsNoOp, UserSyscallHalts: each mode. -/
theorem witness_modes : kern.mode = .kernel ∧ user.mode = .user := by decide

/-- KernelLoad: an entry, an absent slot, a slot number above 3, and an image too large. -/
theorem witness_kernelLoad : kernDisk.mode = .kernel ∧
    kernDisk.diskEntry (kernDisk.readV 0).toNat = some ⟨"A", [0x00, 0xE0, 0x12, 0x00]⟩ ∧
    kernDisk.diskEntry ((kernDisk.writeV 0 2).readV 0).toNat = none ∧
    kernDisk.diskEntry ((kernDisk.writeV 0 4).readV 0).toNat = none ∧
    kernDisk.diskEntry ((kernDisk.writeV 0 3).readV 0).toNat = some ⟨"Big", List.replicate 4609 0⟩ ∧
    4608 < (DiskEntry.mk "Big" (List.replicate 4609 0)).bytes.length :=
  ⟨rfl, rfl, rfl, rfl, rfl, by rw [List.length_replicate]; decide⟩

/-- KernelLoad: slots 0 and 3 exist, slot 4 does not, and an image of exactly 4,608 bytes. -/
theorem witness_kernelLoad_full : (0 : Nat) < 4 ∧ (3 : Nat) < 4 ∧ 3 < (4 : Nat) ∧ kernFull.mode = .kernel ∧
    kernFull.diskEntry (kernFull.readV 0).toNat = some ⟨"Full", List.replicate 4608 0xAB⟩ ∧
    (DiskEntry.mk "Full" (List.replicate 4608 0xAB)).bytes.length = 4608 :=
  ⟨by decide, by decide, by decide, rfl, rfl, List.length_replicate⟩

end Sys2Proof.Tests
end

section
/-! PROOFS. What a decoded word is: it encodes to the word it came from, it is UNKNOWN or well-formed, and so
UNKNOWN is what a word of no row decodes to (spec 30_encoding.md R46, R50, R51, R57). -/

namespace Sys2Proof.Decoder

/-! ### A word is its fields (R46, R47) -/

theorem nnn_eq {op : Word} {f : Nibble} (hf : fieldFamily op = f) : f ++ fieldNNN op = op := by
  subst hf
  exact (BitVec.extractLsb'_append_extractLsb'_eq_extractLsb' rfl).trans (extractLsb'_whole op)

theorem xnn_eq {op : Word} {f : Nibble} (hf : fieldFamily op = f) : f ++ fieldX op ++ fieldNN op = op := by
  subst hf
  have hfx : fieldFamily op ++ fieldX op = op.extractLsb' 8 8 :=
    BitVec.extractLsb'_append_extractLsb'_eq_extractLsb' rfl
  rw [hfx]
  exact joinBytes_high_low op

theorem xss_eq {op : Word} {f : Nibble} {c : Byte} (hf : fieldFamily op = f) (hc : fieldNN op = c) :
    f ++ fieldX op ++ c = op := hc ▸ xnn_eq hf

theorem xyn_eq {op : Word} {f n : Nibble} (hf : fieldFamily op = f) (hn : fieldN op = n) :
    f ++ fieldX op ++ fieldY op ++ n = op := by
  subst hf hn
  have hfx : fieldFamily op ++ fieldX op = op.extractLsb' 8 8 :=
    BitVec.extractLsb'_append_extractLsb'_eq_extractLsb' rfl
  have hfxy : op.extractLsb' 8 8 ++ fieldY op = op.extractLsb' 4 12 :=
    BitVec.extractLsb'_append_extractLsb'_eq_extractLsb' rfl
  rw [hfx, hfxy]
  exact (BitVec.extractLsb'_append_extractLsb'_eq_extractLsb' rfl).trans (extractLsb'_whole op)

theorem kss_eq {op : Word} (hf : fieldFamily op = 0xF) (hx : fieldX op = 0) : 0xF0#8 ++ fieldNN op = op := by
  have h := xnn_eq hf
  rw [hx] at h
  exact h

/-- The sixteen families cover every word (R50). -/
theorem family_eq_F {f : Nibble} (h : f ≠ 0x0 ∧ f ≠ 0x1 ∧ f ≠ 0x2 ∧ f ≠ 0x3 ∧ f ≠ 0x4 ∧ f ≠ 0x5 ∧ f ≠ 0x6 ∧
    f ≠ 0x7 ∧ f ≠ 0x8 ∧ f ≠ 0x9 ∧ f ≠ 0xA ∧ f ≠ 0xB ∧ f ≠ 0xC ∧ f ≠ 0xD ∧ f ≠ 0xE) : f = 0xF := by
  revert f
  decide

/-! ### Every branch of the decoder reads its word -/

/-- What the decoder may answer for `op`: a term that encodes to `op` and, unless it is UNKNOWN, is
well-formed. -/
structure Reads (op : Word) (i : Instr) : Prop where
  encode_eq : encode i = op
  unknown_or_wf : i = .unknown op ∨ i.wellFormed = true

theorem Reads.unknown {op : Word} : Reads op (.unknown op) := ⟨rfl, .inl rfl⟩

theorem Reads.of_wf {op : Word} {i : Instr} (he : encode i = op) (hw : i.wellFormed = true) : Reads op i :=
  ⟨he, .inr hw⟩

theorem Reads.ite {op : Word} {c : Prop} [Decidable c] {i j : Instr} (hi : c → Reads op i)
    (hj : ¬ c → Reads op j) : Reads op (if c then i else j) := by
  split
  · exact hi ‹c›
  · exact hj ‹¬ c›

theorem reads_decodeFamily0 (op : Word) : Reads op (decodeFamily0 op) :=
  .ite (fun h => .of_wf h.symm rfl) fun _ =>
  .ite (fun h => .of_wf h.symm rfl) fun _ => .unknown

theorem reads_decodeFamily5 {op : Word} (hf : fieldFamily op = 0x5) : Reads op (decodeFamily5 op) :=
  .ite (fun hn => .of_wf (xyn_eq hf hn) rfl) fun _ => .unknown

theorem reads_decodeFamily8 {op : Word} (hf : fieldFamily op = 0x8) : Reads op (decodeFamily8 op) :=
  .ite (fun hn => .of_wf (xyn_eq hf hn) rfl) fun _ =>
  .ite (fun hn => .of_wf (xyn_eq hf hn) rfl) fun _ =>
  .ite (fun hn => .of_wf (xyn_eq hf hn) rfl) fun _ =>
  .ite (fun hn => .of_wf (xyn_eq hf hn) rfl) fun _ =>
  .ite (fun hn => .of_wf (xyn_eq hf hn) rfl) fun _ =>
  .ite (fun hn => .of_wf (xyn_eq hf hn) rfl) fun _ =>
  .ite (fun hn => .of_wf (xyn_eq hf hn) rfl) fun _ =>
  .ite (fun hn => .of_wf (xyn_eq hf hn) rfl) fun _ =>
  .ite (fun hn => .of_wf (xyn_eq hf hn) rfl) fun _ => .unknown

theorem reads_decodeFamily9 {op : Word} (hf : fieldFamily op = 0x9) : Reads op (decodeFamily9 op) :=
  .ite (fun hn => .of_wf (xyn_eq hf hn) rfl) fun _ => .unknown

theorem reads_decodeFamilyE {op : Word} (hf : fieldFamily op = 0xE) : Reads op (decodeFamilyE op) :=
  .ite (fun hc => .of_wf (xss_eq hf hc) rfl) fun _ =>
  .ite (fun hc => .of_wf (xss_eq hf hc) rfl) fun _ => .unknown

theorem reads_decodeUserF {op : Word} (hf : fieldFamily op = 0xF) (hx : fieldX op ≠ 0) :
    Reads op (decodeUserF op) :=
  have hw : (fieldX op != 0) = true := bne_iff_ne.mpr hx
  .ite (fun hc => .of_wf (xss_eq hf hc) hw) fun _ =>
  .ite (fun hc => .of_wf (xss_eq hf hc) hw) fun _ =>
  .ite (fun hc => .of_wf (xss_eq hf hc) hw) fun _ =>
  .ite (fun hc => .of_wf (xss_eq hf hc) hw) fun _ =>
  .ite (fun hc => .of_wf (xss_eq hf hc) hw) fun _ =>
  .ite (fun hc => .of_wf (xss_eq hf hc) hw) fun _ =>
  .ite (fun hc => .of_wf (xss_eq hf hc) hw) fun _ =>
  .ite (fun hc => .of_wf (xss_eq hf hc) hw) fun _ =>
  .ite (fun hc => .of_wf (xss_eq hf hc) hw) fun _ => .unknown

theorem reads_decodeSyscall {op : Word} (hf : fieldFamily op = 0xF) (hx : fieldX op = 0) :
    Reads op (decodeSyscall op) :=
  have hk : ∀ {c : Byte}, fieldNN op = c → 0xF0#8 ++ c = op := fun hc => hc ▸ kss_eq hf hx
  .ite (fun hc => .of_wf (hk hc) rfl) fun h0 =>
  .ite (fun hc => .of_wf (hk hc) rfl) fun h4 =>
  .ite (fun hc => .of_wf (hk hc) rfl) fun h6 =>
  .ite (fun hc => .of_wf (hk hc) rfl) fun h8 =>
  .of_wf (hk rfl) (by simpa [Instr.wellFormed, definedSyscallIds] using ⟨h0, h4, h6, h8⟩)

theorem reads_decodeFamilyF {op : Word} (hf : fieldFamily op = 0xF) : Reads op (decodeFamilyF op) :=
  .ite (reads_decodeSyscall hf) (reads_decodeUserF hf)

theorem reads_decodeWord (op : Word) : Reads op (decodeWord op) :=
  .ite (fun _ => reads_decodeFamily0 op) fun h0 =>
  .ite (fun hf => .of_wf (nnn_eq hf) rfl) fun h1 =>
  .ite (fun hf => .of_wf (nnn_eq hf) rfl) fun h2 =>
  .ite (fun hf => .of_wf (xnn_eq hf) rfl) fun h3 =>
  .ite (fun hf => .of_wf (xnn_eq hf) rfl) fun h4 =>
  .ite reads_decodeFamily5 fun h5 =>
  .ite (fun hf => .of_wf (xnn_eq hf) rfl) fun h6 =>
  .ite (fun hf => .of_wf (xnn_eq hf) rfl) fun h7 =>
  .ite reads_decodeFamily8 fun h8 =>
  .ite reads_decodeFamily9 fun h9 =>
  .ite (fun hf => .of_wf (nnn_eq hf) rfl) fun hA =>
  .ite (fun hf => .of_wf (nnn_eq hf) rfl) fun hB =>
  .ite (fun hf => .of_wf (xnn_eq hf) rfl) fun hC =>
  .ite (fun hf => .of_wf (xyn_eq hf rfl) rfl) fun hD =>
  .ite reads_decodeFamilyE fun hE =>
  reads_decodeFamilyF (family_eq_F ⟨h0, h1, h2, h3, h4, h5, h6, h7, h8, h9, hA, hB, hC, hD, hE⟩)

/-! ### Words of no row -/

open Sys2Proof.Laws in
/-- The per-instruction row lemmas as one statement over the instruction. -/
theorem rowMatch (i : Instr) : RowMatch.Statement i := by
  cases i with
  | cls => exact RowMatch.cls
  | ret => exact RowMatch.ret
  | jp nnn => exact RowMatch.jp nnn
  | call nnn => exact RowMatch.call nnn
  | seImm x nn => exact RowMatch.seImm x nn
  | sneImm x nn => exact RowMatch.sneImm x nn
  | seReg x y => exact RowMatch.seReg x y
  | ldImm x nn => exact RowMatch.ldImm x nn
  | addImm x nn => exact RowMatch.addImm x nn
  | ldReg x y => exact RowMatch.ldReg x y
  | orReg x y => exact RowMatch.orReg x y
  | andReg x y => exact RowMatch.andReg x y
  | xorReg x y => exact RowMatch.xorReg x y
  | addReg x y => exact RowMatch.addReg x y
  | subReg x y => exact RowMatch.subReg x y
  | shr x y => exact RowMatch.shr x y
  | subn x y => exact RowMatch.subn x y
  | shl x y => exact RowMatch.shl x y
  | sneReg x y => exact RowMatch.sneReg x y
  | ldI nnn => exact RowMatch.ldI nnn
  | jpV0 nnn => exact RowMatch.jpV0 nnn
  | rnd x nn => exact RowMatch.rnd x nn
  | drw x y n => exact RowMatch.drw x y n
  | skp x => exact RowMatch.skp x
  | sknp x => exact RowMatch.sknp x
  | ldVxDt x => exact RowMatch.ldVxDt x
  | ldVxK x => exact RowMatch.ldVxK x
  | ldDtVx x => exact RowMatch.ldDtVx x
  | ldStVx x => exact RowMatch.ldStVx x
  | addI x => exact RowMatch.addI x
  | ldF x => exact RowMatch.ldF x
  | ldB x => exact RowMatch.ldB x
  | storeRegs x => exact RowMatch.storeRegs x
  | loadRegs x => exact RowMatch.loadRegs x
  | kreset => exact RowMatch.kreset
  | kioreset => exact RowMatch.kioreset
  | kshell => exact RowMatch.kshell
  | kload => exact RowMatch.kload
  | ksys nn => exact RowMatch.ksys nn
  | unknown op => exact RowMatch.unknown op

theorem eq_unknown_of_rowOf_eq_none {i : Instr} (h : Laws.RowMatch.rowOf i = none) : i = .unknown (encode i) := by
  cases i with
  | unknown op => rfl
  | _ => cases h

/-- A well-formed instruction other than UNKNOWN encodes to a known word: its own row selects the word. -/
theorem unknown_of_isKnown_encode_eq_false {i : Instr} (hw : i.wellFormed = true)
    (hk : isKnown (encode i) = false) : i = .unknown (encode i) := by
  have hrow := rowMatch i hw
  split at hrow
  case h_1 r _ =>
    obtain ⟨hmem, hsel⟩ := hrow
    have hknown : isKnown (encode i) = true := List.any_eq_true.mpr ⟨r, hmem, hsel⟩
    exact absurd hknown (by simp [hk])
  case h_2 hnone => exact eq_unknown_of_rowOf_eq_none hnone

/-- A word of no row decodes to UNKNOWN with that word (R51). -/
theorem decodeWord_of_isKnown_eq_false {op : Word} (hk : isKnown op = false) : decodeWord op = .unknown op := by
  obtain ⟨he, hu | hw⟩ := reads_decodeWord op
  · exact hu
  · have h := unknown_of_isKnown_encode_eq_false hw (he.symm ▸ hk)
    rwa [he] at h

end Sys2Proof.Decoder

/-- Settles O60: a word of no row is read as UNKNOWN, and UNKNOWN retires with the diagnostic alone. -/
theorem unknownIsNoOp : Obligations.UnknownIsNoOp := by
  unfold Obligations.UnknownIsNoOp
  refine ⟨Sys2Proof.Tests.witness_unknown.1, fun s op => ⟨Sys2Proof.Decoder.decodeWord_of_isKnown_eq_false, ?_⟩⟩
  exact ⟨s.retireWith (.diag (.unknownOpcode op s.pc)), rfl, rfl, rfl, Sys2Proof.Machine.sameExcept_retireWith s _⟩
end

section
/-! PROOFS. CLS (spec 40_family0_cls_ret.md R60): every cell of the cleared framebuffer is 0, and completing after
an update of one piece changes that piece, `pc` and the output only. -/

namespace Sys2Proof.Machine

/-- Cells past the 2,048 of the grid read 0 as well. -/
@[simp] theorem clearedFramebuffer_cell (k : Nat) : clearedFramebuffer.cell k = false := by
  unfold Framebuffer.cell clearedFramebuffer
  split
  · rw [Vector.getElem_replicate]
    exact BitVec.getLsbD_zero
  · rfl

theorem Part.same_trans {p : Part} {s t u : State} (hst : p.same s t) (htu : p.same t u) : p.same s u := by
  cases p with
  | v | mem => exact fun a => (htu a).trans (hst a)
  | _ => exact Eq.trans htu hst

theorem SameExcept.trans {may may' : List Part} {s t u : State} (hst : SameExcept may s t)
    (htu : SameExcept may' t u) : SameExcept (may ++ may') s u := by
  intro p hp
  rw [List.mem_append, not_or] at hp
  obtain ⟨hm, hm'⟩ := hp
  exact Part.same_trans (hst p hm) (htu p hm')

/-- The frame of an update, carried over the retirement of the instruction that made it (R13). -/
theorem SameExcept.retireWith {may : List Part} {s e : State} (h : SameExcept may s e) (o : CycleOutcome) :
    SameExcept (may ++ [.pc, .output]) s (e.retireWith o) :=
  h.trans (sameExcept_retireWith e o)

theorem sameExcept_fb (s : State) (fb : Framebuffer) : SameExcept [.fb] s { s with fb := fb } := by
  intro p hp
  cases p with
  | fb => exact absurd (List.mem_singleton.mpr rfl) hp
  | v | mem => exact fun _ => rfl
  | _ => rfl

end Sys2Proof.Machine

open Sys2Proof.Machine in
/-- Settles O30: CLS retires with the cleared framebuffer, whose cells are all 0, and writes no other piece. -/
theorem clsClearsFramebuffer : Obligations.ClsClearsFramebuffer := by
  unfold Obligations.ClsClearsFramebuffer
  refine ⟨Sys2Proof.Tests.test_decode_family0.1, fun s => ?_⟩
  have frame := sameExcept_fb s clearedFramebuffer
  exact ⟨_, rfl, clearedFramebuffer_cell, frame.retireWith .ok, rfl, rfl⟩
end

section
/-! PROOFS. SE and SNE with an immediate (spec 42_skip.md R65, R66): families 3 and 4 are decoded whole, and a
conditional skip moves `pc` by its condition and changes nothing else. -/

namespace Sys2Proof.Decoder

/-- Every word of family 3 selects that family's one row; the family has no unknown opcodes (R50). -/
theorem decodeWord_of_family3 {op : Word} (hf : fieldFamily op = 0x3) :
    decodeWord op = .seImm (fieldX op) (fieldNN op) := by
  simp [decodeWord, hf]

/-- Every word of family 4 selects that family's one row; the family has no unknown opcodes (R50). -/
theorem decodeWord_of_family4 {op : Word} (hf : fieldFamily op = 0x4) :
    decodeWord op = .sneImm (fieldX op) (fieldNN op) := by
  simp [decodeWord, hf]

theorem decodeWord_seImm (x : Nibble) (nn : Byte) : decodeWord (0x3#4 ++ x ++ nn) = .seImm x nn := by
  rw [decodeWord_of_family3 (fieldFamily_xnn 0x3#4 x nn), fieldX_xnn, fieldNN_xnn]

theorem decodeWord_sneImm (x : Nibble) (nn : Byte) : decodeWord (0x4#4 ++ x ++ nn) = .sneImm x nn := by
  rw [decodeWord_of_family4 (fieldFamily_xnn 0x4#4 x nn), fieldX_xnn, fieldNN_xnn]

end Sys2Proof.Decoder

namespace Sys2Proof.Machine

/-- A conditional skip whose test `c` decides `P`: `pc` moves by four bytes when `P` holds and by two otherwise,
and nothing else changes (R13, R54). -/
theorem skipWhen_next {c : Bool} {P : Prop} [Decidable P] (h : c = true ↔ P) (s : State) :
    ∃ t : State, skipWhen c s = .next t ∧ t.pc = (if P then s.pc + 4 else s.pc + 2) ∧
      t.output = Output.ofCycle .ok ∧ SameExcept [.pc, .output] s t := by
  refine ⟨_, skipWhen_eq c s, ?_, State.jump_output _ s, sameExcept_jump s _⟩
  simp only [State.jump_pc, h]

theorem exec_seImm (x : Nibble) (nn : Byte) (s : State) :
    exec (.seImm x nn) s = skipWhen (s.readV x == nn) s := rfl

theorem exec_sneImm (x : Nibble) (nn : Byte) (s : State) :
    exec (.sneImm x nn) s = skipWhen (s.readV x != nn) s := rfl

end Sys2Proof.Machine

open Sys2Proof.Decoder Sys2Proof.Machine in
/-- Settles O36: 3xnn and 4xnn are the words of SE and SNE, each the conditional skip on `V[x]` and `nn`. -/
theorem skipImmediate : Obligations.SkipImmediate := by
  unfold Obligations.SkipImmediate
  intro s x nn
  rw [exec_seImm, exec_sneImm]
  exact ⟨decodeWord_seImm x nn, decodeWord_sneImm x nn, skipWhen_next beq_iff_eq s, skipWhen_next bne_iff_ne s⟩
end

section
/-! PROOFS. The immediates and the address register (spec 43_immediate.md R69, R70, R71 and 47_fx_user.md R93):
families 6, 7 and A are decoded whole, a word of family F with `x` not 0 is a user word, and a write of `I` is
neither reduced nor wrapped. -/

namespace Sys2Proof.Decoder

/-- Every word of family 6 selects that family's one row; the family has no unknown opcodes (R50). -/
theorem decodeWord_of_family6 {op : Word} (hf : fieldFamily op = 0x6) :
    decodeWord op = .ldImm (fieldX op) (fieldNN op) := by
  simp [decodeWord, hf]

/-- Every word of family 7 selects that family's one row; the family has no unknown opcodes (R50). -/
theorem decodeWord_of_family7 {op : Word} (hf : fieldFamily op = 0x7) :
    decodeWord op = .addImm (fieldX op) (fieldNN op) := by
  simp [decodeWord, hf]

/-- Every word of family A selects that family's one row; the family has no unknown opcodes (R50). -/
theorem decodeWord_of_familyA {op : Word} (hf : fieldFamily op = 0xA) : decodeWord op = .ldI (fieldNNN op) := by
  simp [decodeWord, hf]

/-- The last family is what the other fifteen leave (R50). -/
theorem decodeWord_of_familyF {op : Word} (hf : fieldFamily op = 0xF) : decodeWord op = decodeFamilyF op := by
  simp [decodeWord, hf]

/-- A word of family F whose register selector is not 0 is a user word (R97, R98). -/
theorem decodeWord_of_userF {op : Word} (hf : fieldFamily op = 0xF) (hx : fieldX op ≠ 0) :
    decodeWord op = decodeUserF op :=
  (decodeWord_of_familyF hf).trans (if_neg hx)

theorem decodeUserF_of_0x29 {op : Word} (hc : fieldNN op = 0x29) : decodeUserF op = .ldF (fieldX op) := by
  simp [decodeUserF, hc]

theorem decodeWord_ldImm (x : Nibble) (nn : Byte) : decodeWord (0x6#4 ++ x ++ nn) = .ldImm x nn := by
  rw [decodeWord_of_family6 (fieldFamily_xnn 0x6#4 x nn), fieldX_xnn, fieldNN_xnn]

theorem decodeWord_addImm (x : Nibble) (nn : Byte) : decodeWord (0x7#4 ++ x ++ nn) = .addImm x nn := by
  rw [decodeWord_of_family7 (fieldFamily_xnn 0x7#4 x nn), fieldX_xnn, fieldNN_xnn]

theorem decodeWord_ldI (nnn : Addr12) : decodeWord (0xA#4 ++ nnn) = .ldI nnn := by
  rw [decodeWord_of_familyA (fieldFamily_nnn 0xA#4 nnn), fieldNNN_nnn]

theorem decodeWord_userF {x : Nibble} (hx : x ≠ 0) (c : Byte) :
    decodeWord (0xF#4 ++ x ++ c) = decodeUserF (0xF#4 ++ x ++ c) := by
  have hsel : fieldX (0xF#4 ++ x ++ c) ≠ 0 := by rwa [fieldX_xnn]
  exact decodeWord_of_userF (fieldFamily_xnn 0xF#4 x c) hsel

theorem decodeWord_ldF {x : Nibble} (hx : x ≠ 0) : decodeWord (0xF#4 ++ x ++ 0x29#8) = .ldF x := by
  rw [decodeWord_userF hx, decodeUserF_of_0x29 (fieldNN_xnn 0xF#4 x 0x29#8), fieldX_xnn]

end Sys2Proof.Decoder

namespace Sys2Proof.Machine

theorem exec_ldImm (x : Nibble) (nn : Byte) (s : State) : exec (.ldImm x nn) s = complete (s.writeV x nn) := rfl

theorem exec_addImm (x : Nibble) (nn : Byte) (s : State) :
    exec (.addImm x nn) s = complete (s.writeV x (s.readV x + nn)) := rfl

theorem exec_ldI (nnn : Addr12) (s : State) :
    exec (.ldI nnn) s = complete { s with regI := zextAddr nnn } := rfl

theorem exec_ldF (x : Nibble) (s : State) :
    exec (.ldF x) s = complete { s with regI := glyphAddr (s.readV x) } := rfl

/-- Zero extension keeps the address (R48). -/
theorem toNat_zextAddr (nnn : Addr12) : (zextAddr nnn).toNat = nnn.toNat :=
  BitVec.toNat_setWidth_of_le (by decide)

theorem toNat_zextByte (b : Byte) : (zextByte b).toNat = b.toNat :=
  BitVec.toNat_setWidth_of_le (by decide)

/-- The glyph of the largest byte starts at 0x54B, so the sixteen-bit sum does not wrap (R93). -/
theorem toNat_glyphAddr (b : Byte) : (glyphAddr b).toNat = 0x50 + b.toNat * 5 := by
  have hb : b.toNat < 256 := b.isLt
  have hw : (glyphAddr b).toNat = (0x50 + b.toNat * 5 % 65536) % 65536 := by
    rw [← toNat_zextByte b]
    rfl
  omega

theorem sameExcept_regI (s : State) (a : Word) : SameExcept [.regI] s { s with regI := a } := by
  intro p hp
  cases p with
  | regI => exact absurd (List.mem_singleton.mpr rfl) hp
  | v | mem => exact fun _ => rfl
  | _ => rfl

/-- A write of `I` followed by completion sets `I` and nothing else but `pc` and the output (R71). -/
theorem complete_regI (s : State) (a : Word) :
    ∃ t : State, complete { s with regI := a } = .next t ∧ t.regI = a ∧
      SameExcept [.regI, .pc, .output] s t ∧ Completed s t := by
  have frame := sameExcept_regI s a
  exact ⟨_, rfl, rfl, frame.retireWith .ok, rfl, rfl⟩

end Sys2Proof.Machine

open Sys2Proof.Decoder Sys2Proof.Machine in
/-- Settles O40: 6xnn is the word of LD Vx, nn, a write of `V[x]` that completes. -/
theorem loadImmediate : Obligations.LoadImmediate := by
  unfold Obligations.LoadImmediate
  intro s x nn
  rw [exec_ldImm]
  exact ⟨decodeWord_ldImm x nn, _, setsRegister_complete s x nn⟩

open Sys2Proof.Decoder Sys2Proof.Machine in
/-- Settles O41: 7xnn is the word of ADD Vx, nn, which writes the sum of two bytes to `V[x]` and completes. -/
theorem addImmediateWraps : Obligations.AddImmediateWraps := by
  unfold Obligations.AddImmediateWraps
  intro s x nn
  rw [exec_addImm]
  obtain ⟨hnext, hsets⟩ := setsRegister_complete s x (s.readV x + nn)
  exact ⟨decodeWord_addImm x nn, _, _, hnext, BitVec.toNat_add _ _, hsets⟩

open Sys2Proof.Decoder Sys2Proof.Machine in
/-- Settles O42: Annn and Fx29 are the words of LD I and LD F, each a write of `I` that completes, by the
address as it is and by the glyph's address. -/
theorem loadIndexAndGlyphAddress : Obligations.LoadIndexAndGlyphAddress := by
  unfold Obligations.LoadIndexAndGlyphAddress
  intro s nnn x
  rw [exec_ldI, exec_ldF]
  obtain ⟨t, ht, hregI, frame⟩ := complete_regI s (zextAddr nnn)
  obtain ⟨u, hu, hglyph, frame'⟩ := complete_regI s (glyphAddr (s.readV x))
  refine ⟨decodeWord_ldI nnn, decodeWord_ldF, ⟨t, ht, ?_, frame⟩, u, hu, ?_, frame'⟩
  · rw [hregI, toNat_zextAddr]
  · rw [hglyph, toNat_glyphAddr]
end

section
/-! PROOFS. LD, OR, AND and XOR between registers (spec 44_alu.md R73, R74, R75, R76): a word of family 8 is read
by its low nibble alone, and each of the four is a write of `V[x]` that completes, with no write of `VF`. -/

namespace Sys2Proof.Decoder

theorem decodeWord_of_family8 {op : Word} (hf : fieldFamily op = 0x8) : decodeWord op = decodeFamily8 op := by
  simp [decodeWord, hf]

/-- A word 8xyn is one of the nine sub-operations of its low nibble, with its own `x` and `y`, or unknown (R50). -/
theorem decodeWord_8xyn (x y n : Nibble) :
    decodeWord (0x8#4 ++ x ++ y ++ n) =
      if n = 0x0 then .ldReg x y
      else if n = 0x1 then .orReg x y
      else if n = 0x2 then .andReg x y
      else if n = 0x3 then .xorReg x y
      else if n = 0x4 then .addReg x y
      else if n = 0x5 then .subReg x y
      else if n = 0x6 then .shr x y
      else if n = 0x7 then .subn x y
      else if n = 0xE then .shl x y
      else .unknown (0x8#4 ++ x ++ y ++ n) := by
  rw [decodeWord_of_family8 (fieldFamily_xyn 0x8#4 x y n), decodeFamily8, fieldX_xyn, fieldY_xyn, fieldN_xyn]

theorem decodeWord_ldReg (x y : Nibble) : decodeWord (0x8#4 ++ x ++ y ++ 0x0#4) = .ldReg x y :=
  decodeWord_8xyn x y 0x0

theorem decodeWord_orReg (x y : Nibble) : decodeWord (0x8#4 ++ x ++ y ++ 0x1#4) = .orReg x y :=
  decodeWord_8xyn x y 0x1

theorem decodeWord_andReg (x y : Nibble) : decodeWord (0x8#4 ++ x ++ y ++ 0x2#4) = .andReg x y :=
  decodeWord_8xyn x y 0x2

theorem decodeWord_xorReg (x y : Nibble) : decodeWord (0x8#4 ++ x ++ y ++ 0x3#4) = .xorReg x y :=
  decodeWord_8xyn x y 0x3

end Sys2Proof.Decoder

namespace Sys2Proof.Machine

theorem exec_ldReg (x y : Nibble) (s : State) :
    exec (.ldReg x y) s = complete (s.writeV x (s.readV y)) := rfl

theorem exec_orReg (x y : Nibble) (s : State) :
    exec (.orReg x y) s = complete (s.writeV x (s.readV x ||| s.readV y)) := rfl

theorem exec_andReg (x y : Nibble) (s : State) :
    exec (.andReg x y) s = complete (s.writeV x (s.readV x &&& s.readV y)) := rfl

theorem exec_xorReg (x y : Nibble) (s : State) :
    exec (.xorReg x y) s = complete (s.writeV x (s.readV x ^^^ s.readV y)) := rfl

end Sys2Proof.Machine

open Sys2Proof.Decoder Sys2Proof.Machine in
/-- Settles O44: 8xy0 to 8xy3 are the words of LD, OR, AND and XOR, each one write of `V[x]` that completes. -/
theorem moveAndLogic : Obligations.MoveAndLogic := by
  unfold Obligations.MoveAndLogic
  intro s x y
  rw [exec_ldReg, exec_orReg, exec_andReg, exec_xorReg]
  exact ⟨decodeWord_ldReg x y, decodeWord_orReg x y, decodeWord_andReg x y, decodeWord_xorReg x y,
    ⟨_, setsRegister_complete s x _⟩, ⟨_, setsRegister_complete s x _⟩,
    ⟨_, setsRegister_complete s x _⟩, ⟨_, setsRegister_complete s x _⟩⟩
end

section
/-! PROOFS. The timer moves (spec 47_fx_user.md R88, R90, R91): a user word of family F is read by its low byte
alone, and a write of one timer leaves the other pieces as they were. -/

namespace Sys2Proof.Decoder

/-- A word Fxnn with `x` not 0 is one of the nine user instructions of its low byte, with its own `x`, or
unknown (R50). -/
theorem decodeWord_Fxnn {x : Nibble} (hx : x ≠ 0) (nn : Byte) :
    decodeWord (0xF#4 ++ x ++ nn) =
      if nn = 0x07 then .ldVxDt x
      else if nn = 0x0A then .ldVxK x
      else if nn = 0x15 then .ldDtVx x
      else if nn = 0x18 then .ldStVx x
      else if nn = 0x1E then .addI x
      else if nn = 0x29 then .ldF x
      else if nn = 0x33 then .ldB x
      else if nn = 0x55 then .storeRegs x
      else if nn = 0x65 then .loadRegs x
      else .unknown (0xF#4 ++ x ++ nn) := by
  rw [decodeWord_userF hx, decodeUserF, fieldX_xnn, fieldNN_xnn]

theorem decodeWord_ldVxDt {x : Nibble} (hx : x ≠ 0) : decodeWord (0xF#4 ++ x ++ 0x07#8) = .ldVxDt x :=
  decodeWord_Fxnn hx 0x07

theorem decodeWord_ldDtVx {x : Nibble} (hx : x ≠ 0) : decodeWord (0xF#4 ++ x ++ 0x15#8) = .ldDtVx x :=
  decodeWord_Fxnn hx 0x15

theorem decodeWord_ldStVx {x : Nibble} (hx : x ≠ 0) : decodeWord (0xF#4 ++ x ++ 0x18#8) = .ldStVx x :=
  decodeWord_Fxnn hx 0x18

end Sys2Proof.Decoder

namespace Sys2Proof.Machine

theorem exec_ldVxDt (x : Nibble) (s : State) : exec (.ldVxDt x) s = complete (s.writeV x s.dt) := rfl

theorem exec_ldDtVx (x : Nibble) (s : State) : exec (.ldDtVx x) s = complete { s with dt := s.readV x } := rfl

theorem exec_ldStVx (x : Nibble) (s : State) : exec (.ldStVx x) s = complete { s with st := s.readV x } := rfl

theorem sameExcept_dt (s : State) (b : Byte) : SameExcept [.dt] s { s with dt := b } := by
  intro p hp
  cases p with
  | dt => exact absurd (List.mem_singleton.mpr rfl) hp
  | v | mem => exact fun _ => rfl
  | _ => rfl

theorem sameExcept_st (s : State) (b : Byte) : SameExcept [.st] s { s with st := b } := by
  intro p hp
  cases p with
  | st => exact absurd (List.mem_singleton.mpr rfl) hp
  | v | mem => exact fun _ => rfl
  | _ => rfl

/-- A write of `DT` followed by completion sets `DT`, whatever it was, and nothing else but `pc` and the
output (R90). -/
theorem complete_dt (s : State) (b : Byte) :
    ∃ t : State, complete { s with dt := b } = .next t ∧ t.dt = b ∧
      SameExcept [.dt, .pc, .output] s t ∧ Completed s t := by
  have frame := sameExcept_dt s b
  exact ⟨_, rfl, rfl, frame.retireWith .ok, rfl, rfl⟩

/-- A write of `ST` followed by completion sets `ST`, whatever it was, and nothing else but `pc` and the
output (R91). -/
theorem complete_st (s : State) (b : Byte) :
    ∃ t : State, complete { s with st := b } = .next t ∧ t.st = b ∧
      SameExcept [.st, .pc, .output] s t ∧ Completed s t := by
  have frame := sameExcept_st s b
  exact ⟨_, rfl, rfl, frame.retireWith .ok, rfl, rfl⟩

end Sys2Proof.Machine

open Sys2Proof.Decoder Sys2Proof.Machine in
/-- Settles O49: Fx07, Fx15 and Fx18 are the words of the timer moves, one write of `V[x]` and one write of each
timer that complete. -/
theorem timerMoves : Obligations.TimerMoves := by
  unfold Obligations.TimerMoves
  intro s x
  rw [exec_ldVxDt, exec_ldDtVx, exec_ldStVx]
  exact ⟨fun hx => ⟨decodeWord_ldVxDt hx, decodeWord_ldDtVx hx, decodeWord_ldStVx hx⟩,
    ⟨_, setsRegister_complete s x s.dt⟩, complete_dt s (s.readV x), complete_st s (s.readV x)⟩
end

section
/-! PROOFS. Decode and encode agree (spec 30_encoding.md R46, R47, R50, R57, R58): the encoded word of a well-formed
instruction decodes to it, and a word that selects a row of the match and mask table decodes to an instruction of
that row. -/

namespace Sys2Proof.Decoder

/-! ### The families not read so far (R50) -/

theorem decodeWord_of_family1 {op : Word} (hf : fieldFamily op = 0x1) : decodeWord op = .jp (fieldNNN op) := by
  simp [decodeWord, hf]

theorem decodeWord_of_family2 {op : Word} (hf : fieldFamily op = 0x2) : decodeWord op = .call (fieldNNN op) := by
  simp [decodeWord, hf]

theorem decodeWord_of_family5 {op : Word} (hf : fieldFamily op = 0x5) : decodeWord op = decodeFamily5 op := by
  simp [decodeWord, hf]

theorem decodeWord_of_family9 {op : Word} (hf : fieldFamily op = 0x9) : decodeWord op = decodeFamily9 op := by
  simp [decodeWord, hf]

theorem decodeWord_of_familyB {op : Word} (hf : fieldFamily op = 0xB) : decodeWord op = .jpV0 (fieldNNN op) := by
  simp [decodeWord, hf]

theorem decodeWord_of_familyC {op : Word} (hf : fieldFamily op = 0xC) :
    decodeWord op = .rnd (fieldX op) (fieldNN op) := by
  simp [decodeWord, hf]

theorem decodeWord_of_familyD {op : Word} (hf : fieldFamily op = 0xD) :
    decodeWord op = .drw (fieldX op) (fieldY op) (fieldN op) := by
  simp [decodeWord, hf]

theorem decodeWord_of_familyE {op : Word} (hf : fieldFamily op = 0xE) : decodeWord op = decodeFamilyE op := by
  simp [decodeWord, hf]

/-- A word of family F whose register selector is 0 is a syscall word (R98). -/
theorem decodeWord_of_syscall {op : Word} (hf : fieldFamily op = 0xF) (hx : fieldX op = 0) :
    decodeWord op = decodeSyscall op :=
  (decodeWord_of_familyF hf).trans (if_pos hx)

/-! ### The words of the remaining instructions -/

theorem decodeWord_jp (nnn : Addr12) : decodeWord (0x1#4 ++ nnn) = .jp nnn := by
  rw [decodeWord_of_family1 (fieldFamily_nnn 0x1#4 nnn), fieldNNN_nnn]

theorem decodeWord_call (nnn : Addr12) : decodeWord (0x2#4 ++ nnn) = .call nnn := by
  rw [decodeWord_of_family2 (fieldFamily_nnn 0x2#4 nnn), fieldNNN_nnn]

theorem decodeWord_jpV0 (nnn : Addr12) : decodeWord (0xB#4 ++ nnn) = .jpV0 nnn := by
  rw [decodeWord_of_familyB (fieldFamily_nnn 0xB#4 nnn), fieldNNN_nnn]

theorem decodeWord_rnd (x : Nibble) (nn : Byte) : decodeWord (0xC#4 ++ x ++ nn) = .rnd x nn := by
  rw [decodeWord_of_familyC (fieldFamily_xnn 0xC#4 x nn), fieldX_xnn, fieldNN_xnn]

theorem decodeWord_drw (x y n : Nibble) : decodeWord (0xD#4 ++ x ++ y ++ n) = .drw x y n := by
  rw [decodeWord_of_familyD (fieldFamily_xyn 0xD#4 x y n), fieldX_xyn, fieldY_xyn, fieldN_xyn]

theorem decodeWord_seReg (x y : Nibble) : decodeWord (0x5#4 ++ x ++ y ++ 0x0#4) = .seReg x y := by
  rw [decodeWord_of_family5 (fieldFamily_xyn 0x5#4 x y 0x0#4), decodeFamily5, fieldX_xyn, fieldY_xyn, fieldN_xyn]
  rfl

theorem decodeWord_sneReg (x y : Nibble) : decodeWord (0x9#4 ++ x ++ y ++ 0x0#4) = .sneReg x y := by
  rw [decodeWord_of_family9 (fieldFamily_xyn 0x9#4 x y 0x0#4), decodeFamily9, fieldX_xyn, fieldY_xyn, fieldN_xyn]
  rfl

theorem decodeWord_skp (x : Nibble) : decodeWord (0xE#4 ++ x ++ 0x9E#8) = .skp x := by
  rw [decodeWord_of_familyE (fieldFamily_xnn 0xE#4 x 0x9E#8), decodeFamilyE, fieldX_xnn, fieldNN_xnn]
  rfl

theorem decodeWord_sknp (x : Nibble) : decodeWord (0xE#4 ++ x ++ 0xA1#8) = .sknp x := by
  rw [decodeWord_of_familyE (fieldFamily_xnn 0xE#4 x 0xA1#8), decodeFamilyE, fieldX_xnn, fieldNN_xnn]
  rfl

theorem decodeWord_ksys {nn : Byte} (h : nn ∉ definedSyscallIds) : decodeWord (0xF0#8 ++ nn) = .ksys nn := by
  obtain ⟨h0, h4, h6, h8⟩ : nn ≠ 0x00 ∧ nn ≠ 0x04 ∧ nn ≠ 0x06 ∧ nn ≠ 0x08 := by
    simpa [definedSyscallIds] using h
  rw [decodeWord_of_syscall (fieldFamily_ksys nn) (fieldX_ksys nn), decodeSyscall, fieldNN_ksys,
    if_neg h0, if_neg h4, if_neg h6, if_neg h8]

/-! ### Decode after encode -/

theorem decodeWord_encode {i : Instr} (hw : i.wellFormed = true) : decodeWord (encode i) = i := by
  have nonzero : ∀ {x : Nibble}, (x != 0) = true → x ≠ 0 := bne_iff_ne.mp
  cases i with
  | cls | ret | kreset | kioreset | kshell | kload => rfl
  | jp nnn => exact decodeWord_jp nnn
  | call nnn => exact decodeWord_call nnn
  | seImm x nn => exact decodeWord_seImm x nn
  | sneImm x nn => exact decodeWord_sneImm x nn
  | seReg x y => exact decodeWord_seReg x y
  | ldImm x nn => exact decodeWord_ldImm x nn
  | addImm x nn => exact decodeWord_addImm x nn
  | ldReg x y => exact decodeWord_8xyn x y 0x0
  | orReg x y => exact decodeWord_8xyn x y 0x1
  | andReg x y => exact decodeWord_8xyn x y 0x2
  | xorReg x y => exact decodeWord_8xyn x y 0x3
  | addReg x y => exact decodeWord_8xyn x y 0x4
  | subReg x y => exact decodeWord_8xyn x y 0x5
  | shr x y => exact decodeWord_8xyn x y 0x6
  | subn x y => exact decodeWord_8xyn x y 0x7
  | shl x y => exact decodeWord_8xyn x y 0xE
  | sneReg x y => exact decodeWord_sneReg x y
  | ldI nnn => exact decodeWord_ldI nnn
  | jpV0 nnn => exact decodeWord_jpV0 nnn
  | rnd x nn => exact decodeWord_rnd x nn
  | drw x y n => exact decodeWord_drw x y n
  | skp x => exact decodeWord_skp x
  | sknp x => exact decodeWord_sknp x
  | ldVxDt x => exact decodeWord_Fxnn (nonzero hw) 0x07
  | ldVxK x => exact decodeWord_Fxnn (nonzero hw) 0x0A
  | ldDtVx x => exact decodeWord_Fxnn (nonzero hw) 0x15
  | ldStVx x => exact decodeWord_Fxnn (nonzero hw) 0x18
  | addI x => exact decodeWord_Fxnn (nonzero hw) 0x1E
  | ldF x => exact decodeWord_Fxnn (nonzero hw) 0x29
  | ldB x => exact decodeWord_Fxnn (nonzero hw) 0x33
  | storeRegs x => exact decodeWord_Fxnn (nonzero hw) 0x55
  | loadRegs x => exact decodeWord_Fxnn (nonzero hw) 0x65
  | ksys nn => exact decodeWord_ksys (by simpa [Instr.wellFormed] using hw)
  | unknown op => exact decodeWord_of_isKnown_eq_false (show isKnown op = false by simpa [Instr.wellFormed] using hw)

/-- The bytes of an encoded instruction are read as its word, and what follows them is left over (R45). -/
theorem decode_encodeBytes_append (i : Instr) (rest : List Byte) :
    decode (encodeBytes i ++ rest) = .ok (decodeWord (encode i), rest) := by
  show Except.ok (decodeWord (joinBytes (highByte (encode i)) (lowByte (encode i))), rest) = _
  rw [joinBytes_high_low]

/-! ### A word is decoded to an instruction of the row it selects -/

open Sys2Proof.Laws.RowMatch

/-- The words that select the row decode to instructions of the row. -/
def RowDecodes (r : Row) : Prop := ∀ op : Word, r.selects op = true → rowOf (decodeWord op) = some r

/-- What `selects` says: the masked bits are the row's, and the constraint holds (R58). -/
theorem selects_iff {r : Row} {op : Word} :
    r.selects op = true ↔ op &&& r.mask = r.value ∧ r.constraint.holds op = true := by
  simp [Row.selects]

/-- A slice the mask keeps whole is the row's. -/
theorem slice_of_masked {op m v : Word} (h : op &&& m = v) (k l : Nat)
    (hm : m.extractLsb' k l = BitVec.allOnes l) : op.extractLsb' k l = v.extractLsb' k l := by
  rw [← h, BitVec.extractLsb'_and, hm, BitVec.and_allOnes]

/-- A row that fixes the family. -/
theorem RowDecodes.of_family {v : Word}
    (h : ∀ op, fieldFamily op = fieldFamily v → rowOf (decodeWord op) = some ⟨0xF000, v, .any⟩) :
    RowDecodes ⟨0xF000, v, .any⟩ := by
  intro op hs
  obtain ⟨hm : op &&& 0xF000#16 = v, -⟩ := selects_iff.mp hs
  exact h op (slice_of_masked hm 12 4 (by decide))

/-- A row that fixes the family and the low nibble. -/
theorem RowDecodes.of_family_nibble {v : Word}
    (h : ∀ op, fieldFamily op = fieldFamily v → fieldN op = fieldN v →
      rowOf (decodeWord op) = some ⟨0xF00F, v, .any⟩) :
    RowDecodes ⟨0xF00F, v, .any⟩ := by
  intro op hs
  obtain ⟨hm : op &&& 0xF00F#16 = v, -⟩ := selects_iff.mp hs
  exact h op (slice_of_masked hm 12 4 (by decide)) (slice_of_masked hm 0 4 (by decide))

/-- A row that fixes the family and the low byte. -/
theorem RowDecodes.of_family_byte {v : Word} {c : RowConstraint}
    (h : ∀ op, fieldFamily op = fieldFamily v → fieldNN op = fieldNN v → c.holds op = true →
      rowOf (decodeWord op) = some ⟨0xF0FF, v, c⟩) :
    RowDecodes ⟨0xF0FF, v, c⟩ := by
  intro op hs
  obtain ⟨hm : op &&& 0xF0FF#16 = v, hc⟩ := selects_iff.mp hs
  exact h op (slice_of_masked hm 12 4 (by decide)) (slice_of_masked hm 0 8 (by decide)) hc

/-- A row of one word. -/
theorem RowDecodes.of_word {v : Word} (h : rowOf (decodeWord v) = some ⟨0xFFFF, v, .any⟩) :
    RowDecodes ⟨0xFFFF, v, .any⟩ := by
  intro op hs
  obtain ⟨hm, -⟩ := selects_iff.mp hs
  have hop : op = v := (BitVec.and_allOnes (x := op)).symm.trans hm
  rw [hop, h]

theorem rowsLow_decode : ∀ r ∈ rowsLow, RowDecodes r := by
  simp only [rowsLow, List.forall_mem_cons]
  refine ⟨.of_word rfl, .of_word rfl, .of_family fun op hf => ?_, .of_family fun op hf => ?_,
    .of_family fun op hf => ?_, .of_family fun op hf => ?_, .of_family_nibble fun op hf hn => ?_,
    .of_family fun op hf => ?_, .of_family fun op hf => ?_, List.forall_mem_nil _⟩
  · rw [decodeWord_of_family1 hf]; rfl
  · rw [decodeWord_of_family2 hf]; rfl
  · rw [decodeWord_of_family3 hf]; rfl
  · rw [decodeWord_of_family4 hf]; rfl
  · rw [decodeWord_of_family5 hf, decodeFamily5, hn]; rfl
  · rw [decodeWord_of_family6 hf]; rfl
  · rw [decodeWord_of_family7 hf]; rfl

theorem rowsAlu_decode : ∀ r ∈ rowsAlu, RowDecodes r := by
  simp only [rowsAlu, List.forall_mem_cons]
  refine ⟨?_, ?_, ?_, ?_, ?_, ?_, ?_, ?_, ?_, List.forall_mem_nil _⟩
  all_goals exact .of_family_nibble fun op hf hn => by rw [decodeWord_of_family8 hf, decodeFamily8, hn]; rfl

theorem rowsHigh_decode : ∀ r ∈ rowsHigh, RowDecodes r := by
  simp only [rowsHigh, List.forall_mem_cons]
  refine ⟨.of_family_nibble fun op hf hn => ?_, .of_family fun op hf => ?_, .of_family fun op hf => ?_,
    .of_family fun op hf => ?_, .of_family fun op hf => ?_, .of_family_byte fun op hf hc _ => ?_,
    .of_family_byte fun op hf hc _ => ?_, List.forall_mem_nil _⟩
  · rw [decodeWord_of_family9 hf, decodeFamily9, hn]; rfl
  · rw [decodeWord_of_familyA hf]; rfl
  · rw [decodeWord_of_familyB hf]; rfl
  · rw [decodeWord_of_familyC hf]; rfl
  · rw [decodeWord_of_familyD hf]; rfl
  · rw [decodeWord_of_familyE hf, decodeFamilyE, hc]; rfl
  · rw [decodeWord_of_familyE hf, decodeFamilyE, hc]; rfl

/-- The generic syscall row: the register selector is 0 and the id is none of the four defined ones (R103). -/
theorem ksysRow_decodes : RowDecodes ⟨0xFF00, 0xF000, .idUndefined⟩ := by
  intro op hs
  obtain ⟨hm, hc⟩ := selects_iff.mp hs
  have hf : fieldFamily op = 0xF := slice_of_masked hm 12 4 (by decide)
  have hx : fieldX op = 0 := slice_of_masked hm 8 4 (by decide)
  have hid : fieldNN op ∉ definedSyscallIds := by simpa [RowConstraint.holds, fieldNN] using hc
  rw [← kss_eq hf hx, decodeWord_ksys hid]
  rfl

theorem rowsF_decode : ∀ r ∈ rowsF, RowDecodes r := by
  simp only [rowsF, List.forall_mem_cons]
  refine ⟨?_, ?_, ?_, ?_, ?_, ?_, ?_, ?_, ?_, .of_word rfl, .of_word rfl, .of_word rfl, .of_word rfl,
    ksysRow_decodes, List.forall_mem_nil _⟩
  all_goals
    refine .of_family_byte fun op hf hc hx => ?_
    rw [decodeWord_of_userF hf (bne_iff_ne.mp hx), decodeUserF, hc]
    rfl

theorem opcodeRows_decode {r : Row} (h : r ∈ opcodeRows) : RowDecodes r := by
  simp only [opcodeRows, List.mem_append] at h
  rcases h with ((h | h) | h) | h
  · exact rowsLow_decode r h
  · exact rowsAlu_decode r h
  · exact rowsHigh_decode r h
  · exact rowsF_decode r h

/-- UNKNOWN stands for no row, so a known word does not decode to it. -/
theorem decodeWord_ne_unknown_of_isKnown {op : Word} (hk : isKnown op = true) (v : Word) :
    decodeWord op ≠ .unknown v := by
  obtain ⟨r, hmem, hsel⟩ := List.any_eq_true.mp hk
  intro hu
  have hrow := opcodeRows_decode hmem op hsel
  rw [hu] at hrow
  cases hrow

end Sys2Proof.Decoder

open Sys2Proof.Decoder in
/-- Settles O2: the two bytes are joined to the encoded word again, and each constructor's word is read by its
family's decoder. -/
theorem decodeOfEncode : Obligations.DecodeOfEncode := by
  unfold Obligations.DecodeOfEncode
  intro i rest hw
  rw [decode_encodeBytes_append, decodeWord_encode hw]

/-- Settles O3: every branch of the decoder answers a term that encodes to its word. -/
theorem encodeOfDecode : Obligations.EncodeOfDecode := by
  unfold Obligations.EncodeOfDecode
  exact fun op => (Sys2Proof.Decoder.reads_decodeWord op).encode_eq

open Sys2Proof Sys2Proof.Decoder in
/-- Settles O4: a branch that answers UNKNOWN is reached by words of no row only. -/
theorem decodeIsWellFormed : Obligations.DecodeIsWellFormed := by
  unfold Obligations.DecodeIsWellFormed
  intro op
  obtain ⟨-, hu | hw⟩ := reads_decodeWord op
  · have hk : isKnown op = false := Bool.eq_false_iff.mpr fun hk => decodeWord_ne_unknown_of_isKnown hk op hu
    simp [hu, Instr.wellFormed, hk]
  · exact hw

open Sys2Proof.Decoder in
/-- Settles O5: a known word decodes to an instruction of its row, a word of no row to UNKNOWN. -/
theorem unknownExactlyWhenNoRow : Obligations.UnknownExactlyWhenNoRow := by
  unfold Obligations.UnknownExactlyWhenNoRow
  intro op
  constructor
  · rintro ⟨v, hv⟩
    exact Bool.eq_false_iff.mpr fun hk => decodeWord_ne_unknown_of_isKnown hk v hv
  · exact fun hk => ⟨op, decodeWord_of_isKnown_eq_false hk⟩

open Sys2Proof.Decoder in
/-- Settles O6: a word decodes to one instruction, and that stands for one row. -/
theorem rowsDisjoint : Obligations.RowsDisjoint := by
  unfold Obligations.RowsDisjoint
  intro op r₁ r₂ hm₁ hm₂ hs₁ hs₂
  have h₁ := opcodeRows_decode hm₁ op hs₁
  have h₂ := opcodeRows_decode hm₂ op hs₂
  exact Option.some.inj (h₁.symm.trans h₂)

/-- Settles O1: twenty-three closed words, each decoded by evaluation. -/
theorem sampleWordsDecode : Obligations.SampleWordsDecode := by
  unfold Obligations.SampleWordsDecode
  decide
end

section
/-! PROOFS. The invariant of reachable states (spec 10_state.md R27). What any next state of an instruction
satisfies is reasoned about once per way an instruction ends; from that every instruction keeps the bounds of
`sp`, `pc`, the stack and memory, and every step keeps the whole invariant. -/

namespace Sys2Proof.Machine

/-! ### Every next state of an outcome -/

/-- The next state of the outcome, if it has one, satisfies `P`. -/
def Ensures (P : State → Prop) (o : Host.Outcome State Fault Refusal) : Prop := ∀ t : State, o = .next t → P t

theorem Ensures.next {P : State → Prop} {t : State} (h : P t) : Ensures P (.next t) := by
  rintro u ⟨⟩
  exact h

theorem Ensures.fault {P : State → Prop} (r : Fault) : Ensures P (.fault r) := by
  rintro u ⟨⟩

theorem Ensures.mono {P Q : State → Prop} {o : Host.Outcome State Fault Refusal} (h : Ensures P o)
    (hPQ : ∀ t, P t → Q t) : Ensures Q o := fun t ht => hPQ t (h t ht)

section
variable {P : State → Prop} {s : State}

theorem Ensures.skipWhen {c : Bool} (h2 : P (s.jump (s.pc + 2))) (h4 : P (s.jump (s.pc + 4))) :
    Ensures P (Machine.skipWhen c s) := by
  rw [skipWhen_eq]
  cases c
  · exact .next h2
  · exact .next h4

theorem Ensures.withAccess {e : State} {a n : Nat} (hf : ∀ f, P (s.halt f))
    (h : s.Accessible a n → P (e.retireWith .ok)) : Ensures P (Machine.withAccess s a n e) := by
  rcases withAccess_cases s a n e with ⟨f, -, he⟩ | ⟨hacc, he⟩
  · rw [he]; exact .next (hf f)
  · rw [he]; exact .next (h hacc)

theorem Ensures.syscall {nn : Byte} {o : Host.Outcome State Fault Refusal} (hf : ∀ f, P (s.halt f))
    (h : s.mode = .kernel → Ensures P o) : Ensures P (Machine.syscall nn o s) := by
  cases hm : s.mode with
  | kernel => rw [syscall_of_kernel hm]; exact h hm
  | user => rw [syscall_of_user hm]; exact .next (hf _)

theorem Ensures.execRet (hf : ∀ f, P (s.halt f))
    (h : ∀ hk : (s.sp - 1).toNat < 16, s.sp ≠ 0 →
      P ({ s with sp := s.sp - 1 }.jump (s.stack[(s.sp - 1).toNat]'hk))) :
    Ensures P (Machine.execRet s) := by
  unfold Machine.execRet
  split
  · exact .next (hf _)
  · next h0 =>
    by_cases hk : (s.sp - 1).toNat < 16
    · rw [State.pop_of_lt hk]; exact .next (h hk h0)
    · rw [State.pop, dif_neg hk]; exact .fault _

theorem Ensures.execCall {nnn : Addr12} (hf : ∀ f, P (s.halt f))
    (h : ∀ hk : s.sp.toNat < 16,
      P ({ s with stack := s.stack.set s.sp.toNat (s.pc + 2) hk, sp := s.sp + 1 }.jump (zextAddr nnn))) :
    Ensures P (Machine.execCall nnn s) := by
  unfold Machine.execCall
  split
  · exact .next (hf _)
  · by_cases hk : s.sp.toNat < 16
    · rw [State.push_of_lt hk]; exact .next (h hk)
    · rw [State.push, dif_neg hk]; exact .fault _

/-- Both skips on a key: a key number above 15 faults, any other is a conditional skip (R87). -/
theorem Ensures.keySkip {b : Byte} {c : Bool} (hf : ∀ f, P (s.halt f)) (h2 : P (s.jump (s.pc + 2)))
    (h4 : P (s.jump (s.pc + 4))) :
    Ensures P (if 15 < b.toNat then raise (.keyIndexOutOfRange b) s else Machine.skipWhen c s) := by
  split
  · exact .next (hf _)
  · exact .skipWhen h2 h4

theorem Ensures.execLdVxK {x : Nibble} (hrepeat : P { s with output := Output.ofCycle .repeat_ })
    (h : ∀ k, keyPick s.params s.keys = some k → P ((s.writeV x k).retireWith .ok)) :
    Ensures P (Machine.execLdVxK x s) := by
  unfold Machine.execLdVxK
  split
  · next k hk => exact .next (h k hk)
  · exact .next hrepeat

theorem Ensures.kernelLoad (hdiag : ∀ o, P (s.retireWith o))
    (h : ∀ e : DiskEntry, e.bytes.length ≤ loadLimit → P ((s.copyImage e.bytes).jump 0x200)) :
    Ensures P (Machine.kernelLoad s) := by
  unfold Machine.kernelLoad
  split
  · exact .next (hdiag _)
  · split
    · exact .next (hdiag _)
    · next e _ hl => exact .next (h e (Nat.le_of_not_lt hl))

end

/-! ### The bounds an instruction keeps -/

/-- The part of the invariant that does not speak of mode, phase and halt cause, of the four pieces it reads. -/
structure Bounded (sp : Byte) (pc : Word) (stack : Vector Word 16) (mem : Memory) : Prop where
  sp_le : sp.toNat ≤ 16
  pc_le : pc.toNat ≤ 0x1402
  stack_le : ∀ k : Nat, (h : k < 16) → (stack[k]'h).toNat ≤ 0x1400
  mem_wf : mem.wf = true
  mem_range : mem.inRange = true

/-- The bounds of a state. -/
abbrev State.Bounded (s : State) : Prop := Machine.Bounded s.sp s.pc s.stack s.mem

theorem State.Inv.bounded {s : State} (h : s.Inv) : s.Bounded :=
  ⟨h.sp_le, h.pc_le, h.stack_le, h.mem_wf, h.mem_range⟩

theorem State.Bounded.inv {s : State} (h : s.Bounded)
    (boot : s.phase = .kernelBoot → s.mode = .kernel ∧ 0x1000 ≤ s.pc.toNat ∧ s.pc.toNat ≤ 0x13FF)
    (user : s.phase = .userRunning → s.mode = .user) (cause : s.haltCause = .none ↔ s.phase ≠ .halted) : s.Inv :=
  ⟨h.sp_le, h.pc_le, h.stack_le, boot, user, cause, h.mem_wf, h.mem_range⟩

section
variable {sp : Byte} {pc : Word} {stack : Vector Word 16} {mem : Memory}

theorem Bounded.with_pc (h : Bounded sp pc stack mem) {pc' : Word} (hpc : pc'.toNat ≤ 0x1402) :
    Bounded sp pc' stack mem := { h with pc_le := hpc }

/-- After an instruction that was fetched inside memory `pc` may be advanced by two or by four (R13). -/
theorem Bounded.advance (h : Bounded sp pc stack mem) (hpc : pc.toNat + 1 < memSize) :
    Bounded sp (pc + 2) stack mem ∧ Bounded sp (pc + 4) stack mem := by
  have hlt : pc.toNat < 0x13FF := by simp only [memSize] at hpc; omega
  exact ⟨h.with_pc (by bv_omega), h.with_pc (by bv_omega)⟩

theorem Bounded.with_writeBytes (h : Bounded sp pc stack mem) {a : Nat} {bs : List Byte}
    (hbs : a + bs.length ≤ memSize) : Bounded sp pc stack (mem.writeBytes a bs) :=
  { h with
    mem_wf := Memory.wf_writeBytes bs mem a h.mem_wf
    mem_range := Memory.inRange_writeBytes bs mem a h.mem_range hbs }

theorem Bounded.with_clearLow (h : Bounded sp pc stack mem) : Bounded sp pc stack mem.clearLow :=
  { h with
    mem_wf := Memory.wf_clearLow mem h.mem_wf
    mem_range := Memory.inRange_clearLow mem h.mem_range }

theorem Bounded.push (h : Bounded sp pc stack mem) (hk : sp.toNat < 16) {ret : Word} (hret : ret.toNat ≤ 0x1400) :
    Bounded (sp + 1) pc (stack.set sp.toNat ret hk) mem := by
  refine { h with sp_le := by bv_omega, stack_le := fun k hk' => ?_ }
  rw [Vector.getElem_set]
  split
  · exact hret
  · exact h.stack_le k hk'

theorem Bounded.pop (h : Bounded sp pc stack mem) (h0 : sp ≠ 0) : Bounded (sp - 1) pc stack mem := by
  have hle := h.sp_le
  exact { h with sp_le := by bv_omega }

theorem Bounded.zeroStack (h : Bounded sp pc stack mem) : Bounded 0 pc (Vector.replicate 16 0) mem :=
  { h with
    sp_le := by decide
    stack_le := fun k hk => by rw [Vector.getElem_replicate]; decide }

end

theorem toNat_zextAddr_lt (nnn : Addr12) : (zextAddr nnn).toNat < 0x1000 := by
  rw [toNat_zextAddr]
  exact nnn.isLt

/-- The target of JP V0 is at most 0xFFF + 0xFF, so the sixteen-bit sum does not wrap (R64). -/
theorem toNat_zextAddr_add_zextByte (nnn : Addr12) (b : Byte) :
    (zextAddr nnn + zextByte b).toNat = nnn.toNat + b.toNat := by
  have hn : nnn.toNat < 4096 := nnn.isLt
  have hb : b.toNat < 256 := b.isLt
  rw [BitVec.toNat_add, toNat_zextAddr, toNat_zextByte]
  omega

/-- Every instruction fetched inside memory keeps the bounds. -/
theorem exec_bounded (i : Instr) {s : State} (hb : s.Bounded) (hpc : s.pc.toNat + 1 < memSize) :
    Ensures State.Bounded (exec i s) := by
  obtain ⟨h2, h4⟩ := hb.advance hpc
  have halted : ∀ f, (s.halt f).Bounded := fun _ => hb
  have jump_lt : ∀ target : Word, target.toNat < 0x1000 → (s.jump target).Bounded :=
    fun target ht => hb.with_pc (pc' := target) (by omega)
  cases i with
  | ret =>
    exact .execRet halted fun hk h0 => (hb.pop h0).with_pc (Nat.le_trans (hb.stack_le _ hk) (by decide))
  | call nnn =>
    have hret : (s.pc + 2).toNat ≤ 0x1400 := by simp only [memSize] at hpc; bv_omega
    exact .execCall halted fun hk =>
      (hb.push hk hret).with_pc (Nat.le_trans (Nat.le_of_lt (toNat_zextAddr_lt nnn)) (by decide))
  | jp nnn => exact .next (jump_lt _ (toNat_zextAddr_lt nnn))
  | jpV0 nnn =>
    have hn : nnn.toNat < 4096 := nnn.isLt
    have hv : (s.readV 0).toNat < 256 := (s.readV 0).isLt
    exact .next (hb.with_pc (pc' := zextAddr nnn + zextByte (s.readV 0))
      (by rw [toNat_zextAddr_add_zextByte]; omega))
  | seImm | sneImm | seReg | sneReg => exact .skipWhen h2 h4
  | skp | sknp => exact .keySkip halted h2 h4
  | drw => exact .withAccess halted fun _ => h2
  | loadRegs => exact .withAccess halted fun _ => by simpa [State.Bounded] using h2
  | ldB x => exact .withAccess halted fun hacc => h2.with_writeBytes (hacc.end_le (by decide))
  | storeRegs x =>
    refine .withAccess halted fun hacc => h2.with_writeBytes ?_
    rw [length_regRun]
    exact hacc.end_le (Nat.succ_pos _)
  | ldVxK x => exact .execLdVxK hb fun _ _ => h2
  | kreset =>
    exact .syscall halted fun _ => .next (h2.zeroStack.with_clearLow.with_writeBytes (by simp [fontBase, memSize]))
  | kload =>
    refine .syscall halted fun _ => .kernelLoad (fun _ => h2) fun e he => ?_
    exact (hb.with_pc (pc' := 0x200) (by decide)).with_writeBytes
      (by simp only [loadLimit, userBase, memSize] at he ⊢; omega)
  | kioreset | kshell | ksys => exact .syscall halted fun _ => .next h2
  | cls | ldImm | addImm | ldReg | orReg | andReg | xorReg | addReg | subReg | shr | subn | shl | ldI | rnd
  | ldVxDt | ldDtVx | ldStVx | addI | ldF | unknown => exact .next h2

/-! ### The cycle and the host events -/

/-- A fetch that reads a word found both addresses accessible (R37). -/
theorem accessible_of_fetch {s : State} {op : Word} (h : fetch s = .ok op) : s.Accessible s.pc.toNat 2 := by
  unfold fetch at h
  split at h
  · cases h
  · next hrun => exact (s.checkRun_eq_none 2 _).mp hrun

theorem State.Running.ne_halted {s : State} (h : s.Running) : s.phase ≠ .halted := by
  rcases h with h | h <;> simp [h]

/-- The invariant speaks of seven pieces of the state. -/
theorem State.Inv.congr {s t : State} (h : s.Inv) (hsp : t.sp = s.sp) (hpc : t.pc = s.pc)
    (hstack : t.stack = s.stack) (hmode : t.mode = s.mode) (hphase : t.phase = s.phase)
    (hcause : t.haltCause = s.haltCause) (hmem : t.mem = s.mem) : t.Inv := by
  refine State.Bounded.inv ?_ ?_ ?_ ?_
  · rw [State.Bounded, hsp, hpc, hstack, hmem]; exact h.bounded
  · rw [hphase, hmode, hpc]; exact h.boot
  · rw [hphase, hmode]; exact h.user
  · rw [hphase, hcause]; exact h.cause

theorem FatalFault.cause_ne_none (f : FatalFault) : f.cause ≠ .none := by
  cases f <;> exact fun h => HaltCause.noConfusion h

/-- A halted state with a cause meets the invariant when the bounds hold. -/
theorem State.Bounded.inv_of_halted {s : State} (h : s.Bounded) (hp : s.phase = .halted)
    (hc : s.haltCause ≠ .none) : s.Inv :=
  h.inv (by simp [hp]) (by simp [hp]) (by simp [hp, hc])

/-- A running state that carries on after an instruction meets the invariant after the boot-exit test: the test
brings `pc` into the kernel range or leaves Kernel mode (R123). -/
theorem State.Inv.bootExit {s u : State} (h : s.Inv) (hr : s.Running) (hc : Carried s u) (hb : u.Bounded) :
    u.bootExit.Inv := by
  obtain ⟨hphase, hmode, hcause, -, -⟩ := hc
  have hs : s.phase ≠ .halted := hr.ne_halted
  have hnone : u.haltCause = .none := hcause.trans (h.cause.mpr hs)
  rcases u.bootExit_cases with ⟨-, -, -, he⟩ | ⟨hstay, he⟩ <;> rw [he]
  · exact State.Bounded.inv (hb.with_pc (pc' := 0x200) (by decide)) (by simp) (by simp) (by simp [hnone])
  · refine hb.inv (fun hp => ?_) (fun hp => ?_) (by simp [hnone, hphase, hs])
    · obtain ⟨hsk, -⟩ := h.boot (hphase ▸ hp)
      have hk : u.mode = .kernel := hmode.trans hsk
      have hin : inKernelRange u.pc = true := by simpa [hp, hk] using hstay
      exact ⟨hk, of_decide_eq_true hin⟩
    · exact hmode.trans (h.user (hphase ▸ hp))

theorem State.Inv.runCycle {s t : State} (h : s.Inv) (hr : s.Running) (ht : runCycle s = .next t) : t.Inv := by
  rcases runCycle_cases ht with ⟨f, rfl⟩ | ⟨op, u, hfetch, hexec, hc, rfl⟩
  · exact State.Bounded.inv_of_halted h.bounded rfl f.cause_ne_none
  · have hpc : s.pc.toNat + 1 < memSize := (accessible_of_fetch hfetch).end_le (by decide)
    exact h.bootExit hr hc (exec_bounded _ h.bounded hpc u hexec)

theorem State.Inv.cycle {s t : State} (h : s.Inv) (ht : cycle s = .next t) : t.Inv := by
  rcases cycle_cases ht with ⟨-, rfl⟩ | ⟨hr, hrun⟩
  · exact h.congr rfl rfl rfl rfl rfl rfl rfl
  · exact h.runCycle hr hrun

theorem State.Inv.load {s : State} (h : s.Inv) (sel : LoadSelector) : (s.load sel).Inv := by
  rcases s.load_cases sel with ⟨o, he⟩ | ⟨hp, e, o, -, hlen, he⟩ <;> rw [he]
  · exact h.congr rfl rfl rfl rfl rfl rfl rfl
  · refine State.Bounded.inv ?_ (by simp [hp]) (fun _ => h.user hp) h.cause
    exact (h.bounded.with_pc (pc' := 0x200) (by decide)).with_writeBytes
      (by simp only [loadLimit, userBase, memSize] at hlen ⊢; omega)

theorem State.Inv.haltRequest {s : State} (h : s.Inv) : s.haltRequest.Inv := by
  rcases s.haltRequest_cases with ⟨-, he⟩ | ⟨-, he⟩ <;> rw [he]
  · exact State.Bounded.inv_of_halted h.bounded rfl (by simp)
  · exact h.congr rfl rfl rfl rfl rfl rfl rfl

/-- The image placed at reset ends inside memory, however long the boot image is (R24). -/
theorem Memory.inRange_fromImage (image : List Byte) : (Memory.fromImage image).inRange = true := by
  refine Memory.inRange_writeBytes _ [] kernelBase rfl ?_
  simp [memSize, kernelBase, defaultBootImage]
  omega

/-- Every piece of the state after reset but memory is the same for all parameters (R140). -/
theorem inv_resetWith (p : Params) : (State.resetWith p).Inv := by
  have hb : Bounded 0 0x1000 (Vector.replicate 16 0) (Memory.fromImage p.bootImage) :=
    { sp_le := by decide
      pc_le := by decide
      stack_le := fun k hk => by rw [Vector.getElem_replicate]; decide
      mem_wf := Memory.wf_fromImage p.bootImage
      mem_range := Memory.inRange_fromImage p.bootImage }
  have hpc : 0x1000 ≤ (0x1000#16).toNat ∧ (0x1000#16).toNat ≤ 0x13FF := by decide
  exact State.Bounded.inv hb (fun _ => ⟨rfl, hpc⟩) (by simp [State.resetWith, State.reset])
    (by simp [State.resetWith, State.reset])

/-- The default boot image is what unlisted addresses read as, so nothing is listed (log 13). -/
theorem Memory.fromImage_default : Memory.fromImage defaultBootImage = [] := by decide

theorem resetWith_default : State.resetWith defaultParams = State.reset := by
  show { State.reset with mem := Memory.fromImage defaultBootImage } = State.reset
  rw [Memory.fromImage_default]
  rfl

theorem State.Inv.applyEvent {e : HostEvent} {s t : State} (h : s.Inv) (ht : applyEvent e s = .next t) : t.Inv := by
  cases e with
  | reset => cases ht; exact (inv_resetWith s.params).congr rfl rfl rfl rfl rfl rfl rfl
  | cycle => exact h.cycle ht
  | load sel => cases ht; exact h.load sel
  | haltRequest => cases ht; exact h.haltRequest
  | tick | setKeys | readFramebuffer =>
    obtain ⟨-, rfl⟩ := whenInitialized_cases ht
    exact h.congr rfl rfl rfl rfl rfl rfl rfl

/-! ### Progress -/

/-- With `sp` at most 16 an instruction never looks for a stack entry that does not exist (log 7). -/
theorem exec_next_of_sp_le (i : Instr) {s : State} (h : s.sp.toNat ≤ 16) : ∃ t : State, exec i s = .next t := by
  rcases exec_endsWell i s with ⟨f, he⟩ | ⟨t, he, -⟩ | ⟨-, hsp⟩
  · exact ⟨_, he⟩
  · exact ⟨t, he⟩
  · omega

theorem runCycle_next_of_sp_le {s : State} (h : s.sp.toNat ≤ 16) : ∃ t : State, runCycle s = .next t := by
  unfold runCycle
  split
  · exact ⟨_, rfl⟩
  · next op _ =>
    obtain ⟨t, ht⟩ := exec_next_of_sp_le (decodeWord op) h
    exact ⟨t.bootExit, by rw [ht]; rfl⟩

theorem cycle_next_of_sp_le {s : State} (h : s.sp.toNat ≤ 16) (hp : s.phase ≠ .uninitialized) :
    ∃ t : State, cycle s = .next t := by
  unfold cycle
  split
  · next hu => exact absurd hu hp
  · exact ⟨_, rfl⟩
  · exact runCycle_next_of_sp_le h
  · exact runCycle_next_of_sp_le h

theorem applyEvent_next_of_sp_le (e : HostEvent) {s : State} (h : s.sp.toNat ≤ 16)
    (hp : s.phase ≠ .uninitialized) : ∃ t : State, applyEvent e s = .next t := by
  cases e with
  | cycle => exact cycle_next_of_sp_le h hp
  | reset | load | haltRequest => exact ⟨_, rfl⟩
  | tick | setKeys | readFramebuffer => exact ⟨_, whenInitialized_of_ne hp _⟩

end Sys2Proof.Machine

open Sys2Proof.Machine in
/-- Settles O14: every event keeps the invariant; a cycle does by the bounds every instruction keeps and by the
boot-exit test. -/
theorem stepKeepsInvariant : Obligations.StepKeepsInvariant := by
  unfold Obligations.StepKeepsInvariant
  intro s t hs h
  refine step_induction (P := fun s t => s.Inv → t.Inv) (fun s t rest ih hs => ?_) (fun e s t ht hs => ?_) h hs
  · exact ih (hs.congr rfl rfl rfl rfl rfl rfl rfl)
  · exact hs.applyEvent ht

open Sys2Proof.Machine in
/-- Settles O13: `State.reset` is the state after reset with the default parameters. -/
theorem resetMeetsInvariant : Obligations.ResetMeetsInvariant := by
  unfold Obligations.ResetMeetsInvariant
  refine ⟨?_, inv_resetWith⟩
  rw [← resetWith_default]
  exact inv_resetWith defaultParams

open Sys2Proof.Machine in
/-- Settles O15: the one fault of the model needs `sp` above 16, the one refusal a machine before its first Reset. -/
theorem invariantStepGoesOn : Obligations.InvariantStepGoesOn := by
  unfold Obligations.InvariantStepGoesOn
  intro s hs hp
  cases hi : s.inbox with
  | nil => rw [step_of_empty hi]; exact cycle_next_of_sp_le hs.sp_le hp
  | cons e rest => rw [step_of_event hi]; exact applyEvent_next_of_sp_le e hs.sp_le hp
end

section
/-! PROOFS. A User-mode cycle learns nothing of the kernel region (spec 20_memory.md R36, 60_exceptions.md R123): two
states that agree but for bytes from 0x1000 up take the same cycle, and end in two states that agree so again. -/

namespace Sys2Proof.Machine

/-! ### States that agree but for the kernel region -/

/-- The two memories read alike at every address below the kernel region. -/
def LowEq (m m' : Memory) : Prop := ∀ a : Nat, a < kernelBase → m'.read a = m.read a

/-- The states are the same but for memory, and read alike below the kernel region. -/
def Alike (s u : State) : Prop := ∃ m : Memory, LowEq s.mem m ∧ u = { s with mem := m }

/-- Two outcomes of one kind, with next states that agree but for the kernel region. -/
inductive OutcomesAlike : Host.Outcome State Fault Refusal → Host.Outcome State Fault Refusal → Prop where
  | next {t u : State} (h : Alike t u) : OutcomesAlike (.next t) (.next u)
  | fault (r : Fault) : OutcomesAlike (.fault r) (.fault r)
  | refused (r : Refusal) : OutcomesAlike (.refused r) (.refused r)

theorem OutcomesAlike.next_of_next {t : State} {o : Host.Outcome State Fault Refusal}
    (h : OutcomesAlike (.next t) o) : ∃ u : State, o = .next u ∧ Alike t u := by
  cases h with
  | next h => exact ⟨_, rfl, h⟩

theorem LowEq.writeBytes {m m' : Memory} (h : LowEq m m') (a : Nat) (bs : List Byte) :
    LowEq (m.writeBytes a bs) (m'.writeBytes a bs) := by
  intro b hb
  rw [Memory.read_writeBytes, Memory.read_writeBytes, h b hb]

theorem LowEq.readBytes {m m' : Memory} (h : LowEq m m') : ∀ (n a : Nat), a + n ≤ kernelBase →
    m'.readBytes a n = m.readBytes a n
  | 0, _, _ => rfl
  | n + 1, a, hn => by rw [Memory.readBytes, Memory.readBytes, h a (by omega), h.readBytes n (a + 1) (by omega)]

/-- The bytes a User-mode access reads are the same (R36). -/
theorem LowEq.readBytes_of_accessible {m m' : Memory} (h : LowEq m m') {s : State} (hu : s.mode = .user)
    {a n : Nat} (hacc : s.Accessible a n) : m'.readBytes a n = m.readBytes a n := by
  cases n with
  | zero => rfl
  | succ n => exact h.readBytes (n + 1) a (hacc.end_le_of_user (Nat.succ_pos n) hu)

theorem Alike.sameExcept {t u : State} (h : Alike t u) : SameExcept [.mem] t u := by
  obtain ⟨m, -, rfl⟩ := h
  intro p hp
  cases p with
  | mem => exact absurd (List.mem_singleton.mpr rfl) hp
  | v => exact fun _ => rfl
  | _ => rfl

theorem Alike.readByte {t u : State} (h : Alike t u) : ∀ a : Nat, a < kernelBase → u.readByte a = t.readByte a := by
  obtain ⟨m, hm, rfl⟩ := h
  exact hm

/-- The boot-exit test does not read memory. -/
theorem Alike.bootExit {t u : State} (h : Alike t u) : Alike t.bootExit u.bootExit := by
  obtain ⟨m, hm, rfl⟩ := h
  unfold State.bootExit
  split
  · exact ⟨m, hm, rfl⟩
  · exact ⟨m, hm, rfl⟩

theorem OutcomesAlike.endOfCycle {o o' : Host.Outcome State Fault Refusal} (h : OutcomesAlike o o') :
    OutcomesAlike (Machine.endOfCycle o) (Machine.endOfCycle o') := by
  cases h with
  | next h => exact .next h.bootExit
  | fault r => exact .fault r
  | refused r => exact .refused r

theorem checkRun_with_mem (s : State) (m : Memory) (a n : Nat) :
    ({ s with mem := m } : State).checkRun a n = s.checkRun a n :=
  State.checkRun_congr (s := s) (t := { s with mem := m }) rfl n a

/-! ### The ways an instruction ends -/

section
variable {s : State} {m : Memory}

theorem OutcomesAlike.raise (hm : LowEq s.mem m) (f : FatalFault) :
    OutcomesAlike (Machine.raise f s) (Machine.raise f { s with mem := m }) := .next ⟨m, hm, rfl⟩

theorem OutcomesAlike.complete {e : State} (hm : LowEq e.mem m) :
    OutcomesAlike (Machine.complete e) (Machine.complete { e with mem := m }) := .next ⟨m, hm, rfl⟩

theorem OutcomesAlike.skipWhen (hm : LowEq s.mem m) (c : Bool) :
    OutcomesAlike (Machine.skipWhen c s) (Machine.skipWhen c { s with mem := m }) := by
  rw [skipWhen_eq, skipWhen_eq]
  exact .next ⟨m, hm, rfl⟩

/-- The check reads the mode only, so both accesses take the same fault, or both pass it. -/
theorem OutcomesAlike.withAccess (hm : LowEq s.mem m) {a n : Nat} {e e' : State}
    (he : s.Accessible a n → Alike e e') :
    OutcomesAlike (Machine.withAccess s a n e) (Machine.withAccess { s with mem := m } a n e') := by
  rcases withAccess_cases s a n e with ⟨f, hf, hs⟩ | ⟨hacc, hs⟩
  · rw [hs, withAccess_of_fault (s := { s with mem := m }) hf]
    exact .raise hm f
  · rw [hs, withAccess_of_accessible (s := { s with mem := m }) hacc]
    obtain ⟨m', hm', rfl⟩ := he hacc
    exact .complete hm'

/-- In User mode a syscall word faults, whatever its service would do (R104). -/
theorem OutcomesAlike.syscall (hm : LowEq s.mem m) (hu : s.mode = .user) (nn : Byte)
    (o o' : Host.Outcome State Fault Refusal) :
    OutcomesAlike (Machine.syscall nn o s) (Machine.syscall nn o' { s with mem := m }) := by
  rw [syscall_of_user hu, syscall_of_user (s := { s with mem := m }) hu]
  exact .next ⟨m, hm, rfl⟩

theorem OutcomesAlike.execRet (hm : LowEq s.mem m) :
    OutcomesAlike (Machine.execRet s) (Machine.execRet { s with mem := m }) := by
  unfold Machine.execRet State.pop
  split
  · exact .raise hm _
  · split
    · exact .next ⟨m, hm, rfl⟩
    · exact .fault _

theorem OutcomesAlike.execCall (hm : LowEq s.mem m) (nnn : Addr12) :
    OutcomesAlike (Machine.execCall nnn s) (Machine.execCall nnn { s with mem := m }) := by
  unfold Machine.execCall State.push
  split
  · exact .raise hm _
  · split
    · exact .next ⟨m, hm, rfl⟩
    · exact .fault _

theorem OutcomesAlike.keySkip (hm : LowEq s.mem m) (b : Byte) (c : Bool) :
    OutcomesAlike (if 15 < b.toNat then Machine.raise (.keyIndexOutOfRange b) s else Machine.skipWhen c s)
      (if 15 < b.toNat then Machine.raise (.keyIndexOutOfRange b) { s with mem := m }
        else Machine.skipWhen c { s with mem := m }) := by
  split
  · exact .raise hm _
  · exact .skipWhen hm c

theorem OutcomesAlike.execLdVxK (hm : LowEq s.mem m) (x : Nibble) :
    OutcomesAlike (Machine.execLdVxK x s) (Machine.execLdVxK x { s with mem := m }) := by
  unfold Machine.execLdVxK
  cases keyPick s.params s.keys with
  | some k => exact .next ⟨m, hm, rfl⟩
  | none => exact .next ⟨m, hm, rfl⟩

/-- The sprite's rows are accessed in User mode, so they are the same (R83). -/
theorem OutcomesAlike.execDrw (hm : LowEq s.mem m) (hu : s.mode = .user) (x y n : Nibble) :
    OutcomesAlike (Machine.execDrw x y n s) (Machine.execDrw x y n { s with mem := m }) := by
  refine .withAccess hm fun hacc => ⟨m, hm, ?_⟩
  have hsprite : drawSprite { s with mem := m } x y n = drawSprite s x y n := by
    show drawRows _ _ _ (m.readBytes s.dataAddr n.toNat) = _
    rw [hm.readBytes_of_accessible hu hacc]
    rfl
  rw [hsprite]
  rfl

theorem OutcomesAlike.execLoadRegs (hm : LowEq s.mem m) (hu : s.mode = .user) (x : Nibble) :
    OutcomesAlike (Machine.execLoadRegs x s) (Machine.execLoadRegs x { s with mem := m }) := by
  refine .withAccess hm fun hacc => ⟨m, hm, ?_⟩
  show ({ s with v := loadRun s.v (m.readBytes s.dataAddr (runLength x)), mem := m } : State) = _
  rw [hm.readBytes_of_accessible hu hacc]

end

/-- A User-mode instruction treats states alike that agree but for the kernel region. -/
theorem exec_alike (i : Instr) {s : State} {m : Memory} (hm : LowEq s.mem m) (hu : s.mode = .user) :
    OutcomesAlike (exec i s) (exec i { s with mem := m }) := by
  cases i with
  | ret => exact .execRet hm
  | call nnn => exact .execCall hm nnn
  | seImm | sneImm | seReg | sneReg => exact .skipWhen hm _
  | skp | sknp => exact .keySkip hm _ _
  | drw x y n => exact .execDrw hm hu x y n
  | loadRegs x => exact .execLoadRegs hm hu x
  | ldB | storeRegs => exact .withAccess hm fun _ => ⟨_, hm.writeBytes _ _, rfl⟩
  | ldVxK x => exact .execLdVxK hm x
  | kreset | kioreset | kshell | kload | ksys => exact .syscall hm hu _ _ _
  | cls | jp | ldImm | addImm | ldReg | orReg | andReg | xorReg | addReg | subReg | shr | subn | shl
  | ldI | jpV0 | rnd | ldVxDt | ldDtVx | ldStVx | addI | ldF | unknown => exact .next ⟨m, hm, rfl⟩

/-! ### The cycle -/

/-- Both fetches take the same fault, or read the same word below the kernel region (R36, D11). -/
theorem fetch_alike {s : State} {m : Memory} (hm : LowEq s.mem m) (hu : s.mode = .user) :
    fetch { s with mem := m } = fetch s := by
  cases hc : s.checkRun s.pc.toNat 2 with
  | some f => simp [fetch, checkRun_with_mem, hc]
  | none =>
    have hend := ((s.checkRun_eq_none 2 _).mp hc).end_le_of_user (by decide) hu
    simp only [fetch, checkRun_with_mem, hc, State.readByte]
    rw [hm _ (by omega), hm _ (by omega)]

theorem runCycle_alike {s : State} {m : Memory} (hm : LowEq s.mem m) (hu : s.mode = .user) :
    OutcomesAlike (runCycle s) (runCycle { s with mem := m }) := by
  unfold runCycle
  rw [fetch_alike hm hu]
  cases fetch s with
  | error f => exact .raise hm f
  | ok op =>
    exact (exec_alike (decodeWord op) hm hu).endOfCycle

theorem cycle_of_uninitialized {s : State} (h : s.phase = .uninitialized) :
    cycle s = .refused .uninitialized := by
  simp [cycle, h]

theorem cycle_of_halted {s : State} (h : s.phase = .halted) :
    cycle s = .next { s with output := Output.ofCycle .idle } := applyEvent_cycle_of_halted h

theorem cycle_of_running {s : State} (h : s.Running) : cycle s = runCycle s := applyEvent_cycle_of_running h

/-- The three kinds of phase (R17). -/
theorem State.phase_cases (s : State) : s.phase = .uninitialized ∨ s.phase = .halted ∨ s.Running := by
  unfold State.Running
  cases s.phase <;> simp

theorem cycle_alike {s : State} {m : Memory} (hm : LowEq s.mem m) (hu : s.mode = .user) :
    OutcomesAlike (cycle s) (cycle { s with mem := m }) := by
  rcases s.phase_cases with hp | hp | hr
  · rw [cycle_of_uninitialized hp, cycle_of_uninitialized (s := { s with mem := m }) hp]
    exact .refused _
  · rw [cycle_of_halted hp, cycle_of_halted (s := { s with mem := m }) hp]
    exact .next ⟨m, hm, rfl⟩
  · rw [cycle_of_running hr, cycle_of_running (s := { s with mem := m }) hr]
    exact runCycle_alike hm hu

end Sys2Proof.Machine

open Sys2Proof.Machine in
/-- Settles O29: the step is a cycle, and a User-mode cycle treats the two states alike. -/
theorem userCycleLearnsNothingOfKernel : Obligations.UserCycleLearnsNothingOfKernel := by
  unfold Obligations.UserCycleLearnsNothingOfKernel
  intro s t m hi hu hm ht
  rw [step_of_empty hi] at ht
  rw [step_of_empty (s := { s with mem := m }) hi]
  have h : OutcomesAlike (cycle s) (cycle { s with mem := m }) := cycle_alike hm hu
  rw [ht] at h
  obtain ⟨u, hnext, hu⟩ := h.next_of_next
  exact ⟨u, hnext, hu.sameExcept, hu.readByte⟩
end

section
/-! PROOFS. What an instruction leaves unchanged (spec 10_state.md R10 to R23, 60_exceptions.md R111): nothing but its
own pieces when it completes, everything but the halt when it faults; `VF` but for the flag writers; and in User mode
every byte of the kernel region. -/

namespace Sys2Proof.Machine

/-! ### Frames of updates -/

/-- A statement about every piece of the state, piece by piece. -/
theorem Part.forall_iff {Q : Part → Prop} :
    (∀ p, Q p) ↔ Q .v ∧ Q .regI ∧ Q .pc ∧ Q .stack ∧ Q .sp ∧ Q .mode ∧ Q .phase ∧ Q .haltCause ∧ Q .dt ∧ Q .st ∧
      Q .keys ∧ Q .fb ∧ Q .mem ∧ Q .params ∧ Q .draws ∧ Q .output ∧ Q .inbox := by
  constructor
  · intro h
    simp only [h, and_self]
  · rintro ⟨hv, hregI, hpc, hstack, hsp, hmode, hphase, hcause, hdt, hst, hkeys, hfb, hmem, hparams, hdraws, hout,
      hin⟩ p
    cases p <;> assumption

/-- The frame of an update, piece by piece, for `simp` to close on a state written as an update. -/
theorem sameExcept_iff {may : List Part} {s t : State} :
    SameExcept may s t ↔
      (.v ∉ may → ∀ r, t.readV r = s.readV r) ∧ (.regI ∉ may → t.regI = s.regI) ∧ (.pc ∉ may → t.pc = s.pc) ∧
      (.stack ∉ may → t.stack = s.stack) ∧ (.sp ∉ may → t.sp = s.sp) ∧ (.mode ∉ may → t.mode = s.mode) ∧
      (.phase ∉ may → t.phase = s.phase) ∧ (.haltCause ∉ may → t.haltCause = s.haltCause) ∧
      (.dt ∉ may → t.dt = s.dt) ∧ (.st ∉ may → t.st = s.st) ∧ (.keys ∉ may → t.keys = s.keys) ∧
      (.fb ∉ may → t.fb = s.fb) ∧ (.mem ∉ may → ∀ a, t.readByte a = s.readByte a) ∧
      (.params ∉ may → t.params = s.params) ∧ (.draws ∉ may → t.draws = s.draws) ∧
      (.output ∉ may → t.output = s.output) ∧ (.inbox ∉ may → t.inbox = s.inbox) :=
  Part.forall_iff

theorem SameExcept.refl (may : List Part) (s : State) : SameExcept may s s := by simp [sameExcept_iff]

theorem SameExcept.mono {may may' : List Part} {s t : State} (h : SameExcept may s t)
    (hsub : ∀ p ∈ may, p ∈ may') : SameExcept may' s t := fun p hp => h p fun hm => hp (hsub p hm)

/-- The frame of an update, carried over the control transfer of the instruction that made it (R13). -/
theorem SameExcept.jump {may : List Part} {s e : State} (h : SameExcept may s e) (target : Word) :
    SameExcept (may ++ [.pc, .output]) s (e.jump target) :=
  h.trans (sameExcept_jump e target)

theorem sameExcept_writeV (s : State) (x : Nibble) (b : Byte) : SameExcept [.v] s (s.writeV x b) := by
  simp [sameExcept_iff]

theorem sameExcept_writeV_writeFlag (s : State) (x : Nibble) (b f : Byte) :
    SameExcept [.v] s ((s.writeV x b).writeFlag f) :=
  ((sameExcept_writeV s x b).trans (sameExcept_writeV _ 0xF f)).mono (by decide)

theorem sameExcept_v (s : State) (v : Vector Byte 16) : SameExcept [.v] s { s with v := v } := by
  simp [sameExcept_iff, State.readByte]

theorem sameExcept_sp (s : State) (b : Byte) : SameExcept [.sp] s { s with sp := b } := by
  simp [sameExcept_iff, State.readV, State.readByte]

theorem sameExcept_stack_sp (s : State) (stack : Vector Word 16) (b : Byte) :
    SameExcept [.stack, .sp] s { s with stack := stack, sp := b } := by
  simp [sameExcept_iff, State.readV, State.readByte]

theorem sameExcept_mem (s : State) (m : Memory) : SameExcept [.mem] s { s with mem := m } := by
  simp [sameExcept_iff, State.readV]

theorem sameExcept_copyImage (s : State) (bytes : List Byte) : SameExcept [.mem] s (s.copyImage bytes) :=
  sameExcept_mem s _

theorem sameExcept_draws (s : State) (n : Nat) : SameExcept [.draws] s { s with draws := n } := by
  simp [sameExcept_iff, State.readV, State.readByte]

theorem sameExcept_kernelReset (s : State) :
    SameExcept [.v, .regI, .stack, .sp, .mem] s s.kernelReset := by
  simp [sameExcept_iff]

theorem sameExcept_ioReset (s : State) :
    SameExcept [.fb, .dt, .st, .keys] s { s with fb := clearedFramebuffer, dt := 0, st := 0, keys := 0 } := by
  simp [sameExcept_iff, State.readV, State.readByte]

theorem sameExcept_drawn (s : State) (fb : Framebuffer) (f : Byte) :
    SameExcept [.v, .fb] s ({ s with fb := fb }.writeFlag f) :=
  ((sameExcept_fb s fb).trans (sameExcept_writeV _ 0xF f)).mono (by decide)

/-! ### The frame of every instruction -/

/-- The state a fatal fault leaves, or one where the instruction wrote `may`, `pc` and the output at most. -/
def FramedBy (may : List Part) (s t : State) : Prop :=
  (∃ f, t = s.halt f) ∨ SameExcept ([.pc, .output] ++ may) s t

theorem FramedBy.halt (may : List Part) (s : State) (f : FatalFault) : FramedBy may s (s.halt f) := .inl ⟨f, rfl⟩

theorem SameExcept.framed {may : List Part} {s t : State} (h : SameExcept (may ++ [.pc, .output]) s t) :
    FramedBy may s t :=
  .inr (h.mono fun p hp => by simpa [or_comm, or_left_comm, or_assoc] using hp)

theorem FramedBy.retireWith {may : List Part} {s e : State} (h : SameExcept may s e) (o : CycleOutcome) :
    FramedBy may s (e.retireWith o) := (h.retireWith o).framed

theorem FramedBy.jump {may : List Part} {s e : State} (h : SameExcept may s e) (target : Word) :
    FramedBy may s (e.jump target) := (h.jump target).framed

/-- Every instruction faults, or writes its own pieces, `pc` and the output at most. -/
theorem exec_framed (i : Instr) (s : State) : Ensures (FramedBy (writtenParts i) s) (exec i s) := by
  have halted : ∀ f, FramedBy (writtenParts i) s (s.halt f) := FramedBy.halt _ s
  have skip : ∀ {may} target, FramedBy may s (s.jump target) := fun target => .jump (.refl _ s) target
  have noop : ∀ {may} o, FramedBy may s (s.retireWith o) := fun o => .retireWith (.refl _ s) o
  cases i with
  | cls => exact .next (.retireWith (sameExcept_fb s _) _)
  | ret => exact .execRet halted fun _ _ => .jump (sameExcept_sp s _) _
  | call nnn => exact .execCall halted fun _ => .jump (sameExcept_stack_sp s _ _) _
  | jp | jpV0 => exact .next (skip _)
  | seImm | sneImm | seReg | sneReg => exact .skipWhen (skip _) (skip _)
  | skp | sknp => exact .keySkip halted (skip _) (skip _)
  | ldImm | addImm | ldReg | orReg | andReg | xorReg | ldVxDt =>
    exact .next (.retireWith (sameExcept_writeV s _ _) _)
  | addReg | subReg | shr | subn | shl =>
    exact .next (.retireWith (sameExcept_writeV_writeFlag s _ _ _) _)
  | ldI | addI | ldF => exact .next (.retireWith (sameExcept_regI s _) _)
  | rnd => exact .next (.retireWith ((sameExcept_writeV s _ _).trans (sameExcept_draws _ _)) _)
  | drw => exact .withAccess halted fun _ => .retireWith (sameExcept_drawn s _ _) _
  | ldVxK => exact .execLdVxK (.inr ((sameExcept_output s _).mono (by simp))) fun _ _ =>
      .retireWith (sameExcept_writeV s _ _) _
  | ldDtVx => exact .next (.retireWith (sameExcept_dt s _) _)
  | ldStVx => exact .next (.retireWith (sameExcept_st s _) _)
  | ldB | storeRegs => exact .withAccess halted fun _ => .retireWith (sameExcept_mem s _) _
  | loadRegs => exact .withAccess halted fun _ => .retireWith (sameExcept_v s _) _
  | kreset => exact .syscall halted fun _ => .next (.retireWith (sameExcept_kernelReset s) _)
  | kioreset => exact .syscall halted fun _ => .next (.retireWith (sameExcept_ioReset s) _)
  | kshell =>
    exact .syscall halted fun _ =>
      .next (.inr (((sameExcept_retireWith s .ok).trans (sameExcept_output _ _)).mono (by simp)))
  | kload =>
    exact .syscall halted fun _ => .kernelLoad noop fun e _ => .jump (sameExcept_copyImage s e.bytes) _
  | ksys => exact .syscall halted fun _ => .next (noop _)
  | unknown => exact .next (noop _)

/-! ### The flag -/

/-- An instruction that writes registers, is no flag writer and does not name register 15 leaves `VF` alone. -/
theorem exec_keeps_vf_of_writes_v {i : Instr} (hv : .v ∈ writtenParts i) (hf : writesVF i = false) (s : State) :
    Ensures (fun t => t.readV 0xF = s.readV 0xF) (exec i s) := by
  have other : ∀ {x : Nibble} (b : Byte), (x == 0xF) = false → (s.writeV x b).readV 0xF = s.readV 0xF :=
    fun b hx => State.readV_writeV_ne s _ _ b (Ne.symm (beq_eq_false_iff_ne.mp hx))
  cases i with
  | ldImm | addImm | ldReg | orReg | andReg | xorReg | rnd | ldVxDt => exact .next (other _ hf)
  | ldVxK x => exact .execLdVxK rfl fun k _ => other k hf
  | loadRegs x =>
    have hx : x ≠ 0xF := beq_eq_false_iff_ne.mp hf
    have hlt : runLength x ≤ 15 := by simp only [runLength]; bv_omega
    refine .withAccess (fun _ => rfl) fun _ => ?_
    rw [State.readV_retireWith, readV_loadRun, Memory.getElem?_readBytes, if_neg (by simpa using hlt)]
    rfl
  | addReg | subReg | shr | subn | shl | drw | kreset => exact absurd hf (by simp [writesVF])
  | _ => exact absurd hv (by simp [writtenParts])

theorem exec_keeps_vf {i : Instr} (hf : writesVF i = false) (s : State) :
    Ensures (fun t => t.readV 0xF = s.readV 0xF) (exec i s) := by
  by_cases hv : .v ∈ writtenParts i
  · exact exec_keeps_vf_of_writes_v hv hf s
  · refine (exec_framed i s).mono fun t ht => ?_
    rcases ht with ⟨f, rfl⟩ | hframe
    · rfl
    · exact hframe .v (by simpa using hv) 0xF

/-! ### The kernel region -/

/-- A byte outside a run of writes reads as before (R33). -/
theorem bytesExcept_writeBytes (s : State) (a : Nat) (bs : List Byte) :
    BytesExcept a bs.length s { s with mem := s.mem.writeBytes a bs } := by
  intro b hb
  show (s.mem.writeBytes a bs).read b = _
  rw [Memory.read_writeBytes, if_neg (by omega)]
  rfl

/-- Every byte of the kernel region and above reads as before. -/
def KernelRegionKept (s t : State) : Prop := ∀ a : Nat, kernelBase ≤ a → t.readByte a = s.readByte a

/-- A run of writes whose addresses pass the check in User mode ends below the kernel region (R36). -/
theorem kernelRegionKept_of_accessible {s : State} (hu : s.mode = .user) {a : Nat} {bs : List Byte}
    (hacc : s.Accessible a bs.length) :
    KernelRegionKept s { s with mem := s.mem.writeBytes a bs } := by
  cases bs with
  | nil => exact fun _ _ => rfl
  | cons b bs =>
    have hend := hacc.end_le_of_user (Nat.succ_pos _) hu
    exact fun c hc => bytesExcept_writeBytes s a (b :: bs) c (.inr (Nat.le_trans hend hc))

theorem exec_keeps_kernelRegion_of_writes_mem {i : Instr} (hm : .mem ∈ writtenParts i) {s : State}
    (hu : s.mode = .user) : Ensures (KernelRegionKept s) (exec i s) := by
  have halted : ∀ f, KernelRegionKept s (s.halt f) := fun _ _ _ => rfl
  have not_kernel : s.mode ≠ .kernel := by simp [hu]
  cases i with
  | ldB x => exact .withAccess halted fun hacc => kernelRegionKept_of_accessible hu hacc
  | storeRegs x =>
    exact .withAccess halted fun hacc => kernelRegionKept_of_accessible hu (by rwa [length_regRun])
  | kload | kreset => exact .syscall halted fun hk => absurd hk not_kernel
  | _ => exact absurd hm (by simp [writtenParts])

/-- In User mode no instruction writes a byte of the kernel region. -/
theorem exec_keeps_kernelRegion (i : Instr) {s : State} (hu : s.mode = .user) :
    Ensures (KernelRegionKept s) (exec i s) := by
  by_cases hm : .mem ∈ writtenParts i
  · exact exec_keeps_kernelRegion_of_writes_mem hm hu
  · refine (exec_framed i s).mono fun t ht => ?_
    rcases ht with ⟨f, rfl⟩ | hframe
    · exact fun _ _ => rfl
    · exact fun a _ => hframe .mem (by simpa using hm) a

theorem cycle_keeps_kernelRegion {s t : State} (hu : s.mode = .user) (h : cycle s = .next t) :
    KernelRegionKept s t := by
  rcases cycle_cases h with ⟨-, rfl⟩ | ⟨-, hrun⟩
  · exact fun _ _ => rfl
  · rcases runCycle_cases hrun with ⟨f, rfl⟩ | ⟨op, u, -, hexec, ⟨-, hmode, -⟩, rfl⟩
    · exact fun _ _ => rfl
    · rw [State.bootExit_of_user (hmode.trans hu)]
      exact exec_keeps_kernelRegion _ hu u hexec

/-! ### Faults -/

/-- From a running state an instruction reaches Halted by a fatal fault only. -/
theorem exec_halts_by_fault {i : Instr} {s t : State} (hr : s.Running) (h : exec i s = .next t)
    (hp : t.phase = .halted) : ∃ f, HaltedBy f s t := by
  rcases exec_endsWell i s with ⟨f, he⟩ | ⟨u, he, hphase, -⟩ | ⟨he, -⟩ <;> rw [h] at he <;> cases he
  · exact ⟨f, haltedBy_halt f s⟩
  · exact absurd (hphase.symm.trans hp) hr.ne_halted

/-- An access whose run of addresses fails halts by the fault of the lowest failing address (R37). -/
theorem withAccess_haltedBy {s : State} {a n : Nat} {f : FatalFault} (h : s.FirstFault a n f) (e : State) :
    ∃ t : State, withAccess s a n e = .next t ∧ HaltedBy f s t :=
  ⟨s.halt f, withAccess_of_fault h e, haltedBy_halt f s⟩

/-- The codes a failed access leaves: 3 out of bounds, 4 in the kernel region (R110, D1). -/
theorem HaltedBy.access_codes {f : FatalFault} {s t : State} (h : HaltedBy f s t) :
    (∀ a : Nat, f = .outOfBoundsAccess a → t.haltCause.code = 3) ∧
    (∀ a : Nat, f = .privilegeViolationAt a → t.haltCause.code = 4) := by
  obtain ⟨-, hcause, -, -⟩ := h
  constructor
  · rintro a rfl
    rw [hcause]; rfl
  · rintro a rfl
    rw [hcause]; rfl

end Sys2Proof.Machine

open Sys2Proof.Machine in
/-- Settles O26: an instruction that faults ends in Halted; any other keeps to its frame. -/
theorem instructionsWriteOnlyTheirParts : Obligations.InstructionsWriteOnlyTheirParts := by
  unfold Obligations.InstructionsWriteOnlyTheirParts
  intro i s t h hp
  rcases exec_framed i s t h with ⟨f, rfl⟩ | hframe
  · exact absurd rfl hp
  · exact hframe

open Sys2Proof.Machine in
/-- Settles O27: `VF` is outside the frame, or the instruction writes other registers only. -/
theorem onlyFlagWritersChangeVF : Obligations.OnlyFlagWritersChangeVF := by
  unfold Obligations.OnlyFlagWritersChangeVF
  exact fun i s t h hf => exec_keeps_vf hf s t h

open Sys2Proof.Machine in
/-- Settles O28: the step is a cycle, whose instruction writes below the kernel region, and User mode has no boot
exit. -/
theorem userCycleKeepsKernelRegion : Obligations.UserCycleKeepsKernelRegion := by
  unfold Obligations.UserCycleKeepsKernelRegion
  intro s t hi hu h
  rw [step_of_empty hi] at h
  exact cycle_keeps_kernelRegion hu h

open Sys2Proof.Machine in
/-- Settles O25: every instruction that goes on carries the phase over unless it faults. -/
theorem faultCommitsNothing : Obligations.FaultCommitsNothing := by
  unfold Obligations.FaultCommitsNothing
  exact fun i s t hr h hp => exec_halts_by_fault hr h hp

open Sys2Proof.Machine in
/-- Settles O24: the four instructions are accesses of `n`, 3 and `x + 1` addresses from `I`. -/
theorem accessFaultsHalt : Obligations.AccessFaultsHalt := by
  unfold Obligations.AccessFaultsHalt
  exact fun s x y n f => ⟨rfl, fun h => withAccess_haltedBy h _, fun h => withAccess_haltedBy h _,
    fun h => ⟨withAccess_haltedBy h _, withAccess_haltedBy h _⟩, fun t ht => ht.access_codes⟩
end

section
/-! PROOFS. The step (spec 30_encoding.md R49, 60_exceptions.md R111, R120, R123): which instruction a cycle runs, how
it ends in Kernel and in User mode, what Halted keeps, and what an event does before the first Reset. -/

namespace Sys2Proof.Machine

/-! ### The instruction a cycle runs -/

/-- A running machine that can fetch runs the instruction of the two bytes at `pc`, high byte first (R49). -/
theorem cycle_of_decode {s : State} {i : Instr} (hr : s.Running) (hacc : s.Accessible s.pc.toNat 2)
    (hd : decode [s.readByte s.pc.toNat, s.readByte (s.pc.toNat + 1)] = .ok (i, [])) :
    cycle s = endOfCycle (exec i s) := by
  obtain rfl : decodeWord (joinBytes (s.readByte s.pc.toNat) (s.readByte (s.pc.toNat + 1))) = i := by cases hd; rfl
  rw [cycle_of_running hr, runCycle, fetch_of_accessible hacc]

/-- A running machine that cannot fetch halts by the fetch's fault (R117). -/
theorem cycle_of_fetch_fault {s : State} {f : FatalFault} (hr : s.Running) (h : s.FirstFault s.pc.toNat 2 f) :
    cycle s = .next (s.halt f) := by
  rw [cycle_of_running hr, runCycle, fetch_of_fault h]
  rfl

/-! ### The boot exit -/

/-- The boot-exit test in Kernel mode, when not halted (R123). -/
theorem State.bootExit_of_kernel {s : State} (hp : s.phase ≠ .halted) (hm : s.mode = .kernel) :
    s.bootExit = if s.pc.toNat < 0x1000 ∨ 0x13FF < s.pc.toNat
      then { s with mode := .user, phase := .userRunning, pc := 0x200 } else s := by
  unfold State.bootExit
  simp only [inKernelRange_eq_false, ne_eq, hp, hm, not_false_eq_true, true_and]

theorem State.bootExit_of_halted {s : State} (h : s.phase = .halted) : s.bootExit = s := by
  rcases s.bootExit_cases with ⟨hp, -⟩ | ⟨-, he⟩
  · exact absurd h hp
  · exact he

/-- Where a Kernel-mode cycle that does not halt ends (R123). -/
theorem cycle_of_kernel_ends {s t : State} (hr : s.Running) (hm : s.mode = .kernel) (h : cycle s = .next t)
    (hp : t.phase ≠ .halted) :
    (t.mode = .kernel ∧ t.phase = s.phase ∧ 0x1000 ≤ t.pc.toNat ∧ t.pc.toNat ≤ 0x13FF) ∨
    (t.mode = .user ∧ t.phase = .userRunning ∧ t.pc = 0x200) := by
  rw [cycle_of_running hr] at h
  rcases runCycle_cases h with ⟨f, rfl⟩ | ⟨op, u, -, -, ⟨hphase, hmode, -⟩, rfl⟩
  · exact absurd rfl hp
  · rcases u.bootExit_cases with ⟨-, -, -, he⟩ | ⟨hstay, he⟩ <;> rw [he] at hp ⊢
    · exact .inr ⟨rfl, rfl, rfl⟩
    · have hk : u.mode = .kernel := hmode.trans hm
      have hin : inKernelRange u.pc = true := by simpa [hp, hk] using hstay
      exact .inl ⟨hk, hphase, of_decide_eq_true hin⟩

/-! ### Steps that are no Reset -/

/-- Such a step applies some other event to the state with that event taken off the inbox (log 9). -/
theorem step_of_ne_reset {s t : State} (hne : s.inbox.head? ≠ some .reset) (h : step s = .next t) :
    ∃ (e : HostEvent) (rest : List HostEvent), e ≠ .reset ∧ applyEvent e { s with inbox := rest } = .next t := by
  cases hi : s.inbox with
  | nil =>
    rw [step_of_empty hi] at h
    exact ⟨.cycle, s.inbox, by simp, h⟩
  | cons e rest =>
    rw [step_of_event hi] at h
    exact ⟨e, rest, by simpa [hi] using hne, h⟩

theorem cycle_keeps_user {s t : State} (hm : s.mode = .user) (h : cycle s = .next t) : t.mode = .user := by
  rcases cycle_cases h with ⟨-, rfl⟩ | ⟨-, hrun⟩
  · exact hm
  · rcases runCycle_cases hrun with ⟨f, rfl⟩ | ⟨op, u, -, -, ⟨-, hmode, -⟩, rfl⟩
    · exact hm
    · rw [State.bootExit_of_user (hmode.trans hm)]
      exact hmode.trans hm

/-- Nothing but a Reset leaves User mode (R105, D10). -/
theorem applyEvent_keeps_user {e : HostEvent} (hne : e ≠ .reset) {s t : State} (hm : s.mode = .user)
    (h : applyEvent e s = .next t) : t.mode = .user := by
  cases e with
  | reset => exact absurd rfl hne
  | cycle => exact cycle_keeps_user hm h
  | load sel =>
    cases h
    rcases s.load_cases sel with ⟨o, he⟩ | ⟨-, d, o, -, -, he⟩ <;> rw [he] <;> exact hm
  | haltRequest =>
    cases h
    rcases s.haltRequest_cases with ⟨-, he⟩ | ⟨-, he⟩ <;> rw [he] <;> exact hm
  | tick | setKeys | readFramebuffer =>
    obtain ⟨-, rfl⟩ := whenInitialized_cases h
    exact hm

theorem sameExcept_tick (s : State) : SameExcept [.dt, .st, .output] s s.tick := by
  simp [sameExcept_iff, State.tick, State.readV, State.readByte]

theorem sameExcept_setKeys (k : BitVec 16) (s : State) : SameExcept [.keys, .output] s (s.setKeys k) := by
  simp [sameExcept_iff, State.setKeys, State.readV, State.readByte]

theorem sameExcept_readFramebuffer (s : State) : SameExcept [.output] s s.readFramebuffer :=
  sameExcept_output s _

theorem sameExcept_inbox (s : State) (rest : List HostEvent) : SameExcept [.inbox] s { s with inbox := rest } := by
  simp [sameExcept_iff, State.readV, State.readByte]

/-- In Halted an event other than Reset writes timers, keys and output at most (D23, D24, D29, D30). -/
theorem applyEvent_of_halted {e : HostEvent} (hne : e ≠ .reset) {s t : State} (hp : s.phase = .halted)
    (h : applyEvent e s = .next t) : SameExcept [.dt, .st, .keys, .output] s t := by
  have idle : ∀ o, SameExcept [.dt, .st, .keys, .output] s { s with output := o } :=
    fun o => (sameExcept_output s o).mono (by decide)
  have not_running : ¬ s.Running := fun hr => hr.ne_halted hp
  cases e with
  | reset => exact absurd rfl hne
  | cycle =>
    rcases cycle_cases h with ⟨-, rfl⟩ | ⟨hr, -⟩
    · exact idle _
    · exact absurd hr not_running
  | load sel =>
    cases h
    rcases s.load_cases sel with ⟨o, he⟩ | ⟨hu, -⟩
    · rw [he]; exact idle o
    · exact absurd (.inr hu) not_running
  | haltRequest =>
    cases h
    rcases s.haltRequest_cases with ⟨hr, -⟩ | ⟨-, he⟩
    · exact absurd hr not_running
    · rw [he]; exact idle _
  | tick =>
    obtain ⟨-, rfl⟩ := whenInitialized_cases h
    exact (sameExcept_tick s).mono (by decide)
  | setKeys k =>
    obtain ⟨-, rfl⟩ := whenInitialized_cases h
    exact (sameExcept_setKeys k s).mono (by decide)
  | readFramebuffer =>
    obtain ⟨-, rfl⟩ := whenInitialized_cases h
    exact idle _

/-! ### The parameters -/

theorem State.bootExit_params (s : State) : s.bootExit.params = s.params := by
  rcases s.bootExit_cases with ⟨-, -, -, he⟩ | ⟨-, he⟩ <;> rw [he]

theorem cycle_keeps_params {s t : State} (h : cycle s = .next t) : t.params = s.params := by
  rcases cycle_cases h with ⟨-, rfl⟩ | ⟨-, hrun⟩
  · rfl
  · rcases runCycle_cases hrun with ⟨f, rfl⟩ | ⟨op, u, -, -, ⟨-, -, -, hparams, -⟩, rfl⟩
    · rfl
    · exact u.bootExit_params.trans hparams

theorem applyEvent_keeps_params {e : HostEvent} {s t : State} (h : applyEvent e s = .next t) :
    t.params = s.params := by
  cases e with
  | reset => cases h; rfl
  | cycle => exact cycle_keeps_params h
  | load sel =>
    cases h
    rcases s.load_cases sel with ⟨o, he⟩ | ⟨-, d, o, -, -, he⟩
    · rw [he]
    · rw [he]; rfl
  | haltRequest =>
    cases h
    rcases s.haltRequest_cases with ⟨-, he⟩ | ⟨-, he⟩
    · rw [he]
    · rw [he]
  | tick | setKeys | readFramebuffer =>
    obtain ⟨-, rfl⟩ := whenInitialized_cases h
    rfl

/-! ### Before the first Reset -/

theorem whenInitialized_of_uninitialized {s : State} (h : s.phase = .uninitialized) (t : State) :
    whenInitialized s t = .refused .uninitialized := by
  simp [whenInitialized, h]

/-- Outside UserRunning a Load is refused (R143, D23). -/
theorem State.load_of_ne_userRunning {s : State} (h : s.phase ≠ .userRunning) (sel : LoadSelector) :
    s.load sel = { s with output := Output.ofLoad .refused } := by
  have hres : s.loadResult sel = .refused := if_pos h
  simp [State.load, hres]

theorem State.haltRequest_of_not_running {s : State} (h : ¬ s.Running) :
    s.haltRequest = { s with output := Output.nothing } := by
  rcases s.haltRequest_cases with ⟨hr, -⟩ | ⟨-, he⟩
  · exact absurd hr h
  · exact he

end Sys2Proof.Machine

open Sys2Proof Sys2Proof.Machine in
/-- Settles O7: the step by the inbox, the cycle by the fetch and its bytes, and the end of a cycle by the outcome. -/
theorem stepRunsDecodedInstruction : Obligations.StepRunsDecodedInstruction := by
  unfold Obligations.StepRunsDecodedInstruction
  refine ⟨fun s e rest h => step_of_event h, fun s h => step_of_empty h, fun s i hr hacc _ hd => ?_,
    fun hi lo rest => ⟨joinBytes hi lo, toNat_joinBytes hi lo, rfl⟩, fun _ => rfl, fun _ => rfl, fun _ => rfl⟩
  have hcycle := cycle_of_decode hr hacc hd
  exact ⟨hcycle, fun hi => (step_of_empty hi).trans hcycle⟩

open Sys2Proof.Machine in
/-- Settles O8: a fetch that fails raises the fault of the lower failing address, and its code is that fault's. -/
theorem fetchFaultHalts : Obligations.FetchFaultHalts := by
  unfold Obligations.FetchFaultHalts
  intro s f hr h
  have hcycle := cycle_of_fetch_fault hr h
  have halted := haltedBy_halt f s
  exact ⟨s.halt f, hcycle, fun hi => (step_of_empty hi).trans hcycle, halted, halted.access_codes⟩

open Sys2Proof.Machine in
/-- Settles O9: four events need a Reset before them, a Load needs UserRunning, a halt request a running machine. -/
theorem uninitializedAcceptsOnlyReset : Obligations.UninitializedAcceptsOnlyReset := by
  unfold Obligations.UninitializedAcceptsOnlyReset
  intro s k sel hp
  have refused := whenInitialized_of_uninitialized hp
  have hload : applyEvent (.load sel) s = .next { s with output := Output.ofLoad .refused } :=
    congrArg Host.Outcome.next (State.load_of_ne_userRunning (by simp [hp]) sel)
  have hhalt : applyEvent .haltRequest s = .next { s with output := Output.nothing } :=
    congrArg Host.Outcome.next (State.haltRequest_of_not_running (by simp [State.Running, hp]))
  exact ⟨cycle_of_uninitialized hp, refused _, refused _, refused _,
    ⟨_, hload, sameExcept_output s _, rfl⟩, ⟨_, hhalt, sameExcept_output s _⟩⟩

open Sys2Proof.Machine in
/-- Settles O10: the boot-exit test by its cases, and at the end of a cycle that carried phase and mode over. -/
theorem kernelCycleEndsInRangeOrUser : Obligations.KernelCycleEndsInRangeOrUser := by
  unfold Obligations.KernelCycleEndsInRangeOrUser
  refine ⟨fun s => State.bootExit_of_kernel, fun s h => ?_, fun s t hr hm h hp => ?_⟩
  · exact h.elim State.bootExit_of_halted State.bootExit_of_user
  · have hcycle : cycle s = .next t := h.elim id fun ⟨hi, hs⟩ => (step_of_empty hi).symm.trans hs
    exact cycle_of_kernel_ends hr hm hcycle hp

open Sys2Proof.Machine in
/-- Settles O11: no event but Reset writes the mode, except the boot exit, which User mode does not take. -/
theorem userModeIsPermanent : Obligations.UserModeIsPermanent := by
  unfold Obligations.UserModeIsPermanent
  intro s t hm hne h
  obtain ⟨e, rest, he, ht⟩ := step_of_ne_reset hne h
  exact applyEvent_keeps_user he (s := { s with inbox := rest }) hm ht

open Sys2Proof.Machine in
/-- Settles O12: in Halted a cycle is idle, and phase and halt cause are outside the frame of every event but
Reset. -/
theorem haltedIsTerminal : Obligations.HaltedIsTerminal := by
  unfold Obligations.HaltedIsTerminal
  refine ⟨fun s hp => ?_, fun s t hp hne h => ?_⟩
  · exact ⟨_, cycle_of_halted hp, fun hi => step_of_halted hi hp, sameExcept_output s _, rfl⟩
  · obtain ⟨e, rest, he, ht⟩ := step_of_ne_reset hne h
    have hevent := applyEvent_of_halted he (s := { s with inbox := rest }) hp ht
    have frame : SameExcept [.dt, .st, .keys, .output, .inbox] s t :=
      ((sameExcept_inbox s rest).trans hevent).mono (by decide)
    exact ⟨(frame .phase (by decide)).trans hp, frame .haltCause (by decide), frame⟩

open Sys2Proof.Machine in
/-- Settles O16: every event keeps the parameters, Reset among them. -/
theorem parametersAreFixed : Obligations.ParametersAreFixed := by
  unfold Obligations.ParametersAreFixed
  exact fun s t h => step_induction (P := fun s t => t.params = s.params) (fun _ _ _ h => h)
    (fun _ _ _ h => applyEvent_keeps_params h) h
end

section
/-! PROOFS. Reset and the host events (spec 70_reset_and_hazards.md R140, R143, 60_exceptions.md R124, R127, R129):
what each leaves in the pieces it writes, and that it writes no other. -/

namespace Sys2Proof.Machine

/-! ### Reset -/

/-- No byte of the default boot image lies past its eight. -/
theorem Memory.unlisted_past_image {k : Nat} (h : 8 ≤ k) : Memory.unlisted (kernelBase + k) = 0 := by
  have hlen : defaultBootImage.length ≤ k := h
  rw [Memory.unlisted, if_pos (Nat.le_add_right _ _), Nat.add_sub_cancel_left, List.getD,
    List.getElem?_eq_none hlen]
  rfl

/-- The bytes placed at 0x1000 at reset: the image as far as the kernel region goes, and zeros over what an
unlisted address would read as of the default image (R24, log 13). -/
theorem getD_placedImage {image : List Byte} {k : Nat} (hk : k < 1024) :
    (image.take (memSize - kernelBase) ++ List.replicate (defaultBootImage.length - image.length) 0).getD k 0 =
      image.getD k 0 := by
  simp only [List.getD, List.getElem?_append, List.length_take, List.getElem?_take, List.getElem?_replicate,
    memSize, kernelBase]
  by_cases hlt : k < image.length
  · have hin : k < min (0x1400 - 0x1000) image.length := by omega
    simp [hin, hk]
  · have hout : ¬ k < min (0x1400 - 0x1000) image.length := by omega
    rw [if_neg hout, List.getElem?_eq_none (Nat.le_of_not_lt hlt)]
    split <;> rfl

/-- Memory after reset reads as the boot image from 0x1000 and as zero elsewhere (R23, R140). -/
theorem Memory.read_fromImage (image : List Byte) {a : Nat} (ha : a < memSize) :
    (Memory.fromImage image).read a = if kernelBase ≤ a then image.getD (a - kernelBase) 0 else 0 := by
  rw [Memory.fromImage, Memory.read_writeBytes]
  by_cases hk : kernelBase ≤ a
  · obtain ⟨k, rfl⟩ := Nat.exists_eq_add_of_le hk
    have hlt : k < 1024 := by simp only [memSize, kernelBase] at ha; omega
    rw [if_pos hk, Nat.add_sub_cancel_left, getD_placedImage hlt]
    split
    · rfl
    · next hout =>
      simp only [List.length_append, List.length_take, List.length_replicate, defaultBootImage, memSize, kernelBase,
        List.length_cons, List.length_nil] at hout
      rw [Memory.read, Memory.unlisted_past_image (by omega), List.getD, List.getElem?_eq_none (by omega)]
      rfl
  · rw [if_neg hk, if_neg (fun h => hk h.1)]
    exact Memory.unlisted_low a (Nat.lt_of_not_le hk)

theorem readV_replicate (s : State) (r : Nibble) :
    ({ s with v := Vector.replicate 16 0 } : State).readV r = 0 := by
  simp [State.readV]

/-! ### Ticks -/

/-- A tick lowers a timer by one, never below 0 (R127). -/
theorem toNat_tickDown (t : Byte) : (tickDown t).toNat = t.toNat - 1 := by
  unfold tickDown
  split
  · bv_omega
  · omega

/-! ### Load -/

/-- A byte inside a run of writes is the byte written there (R33). -/
theorem readByte_writeBytes (s : State) (a : Nat) {bs : List Byte} {k : Nat} (hk : k < bs.length) :
    ({ s with mem := s.mem.writeBytes a bs } : State).readByte (a + k) = bs.getD k 0 := by
  show (s.mem.writeBytes a bs).read (a + k) = _
  rw [Memory.read_writeBytes, if_pos (by omega), Nat.add_sub_cancel_left]

/-- With distinct names the entry found is the one that bears the name (R143). -/
theorem State.findEntry_name_of_unique {s : State} {nm : String} {j : Nat} (hj : j < 4) {e : DiskEntry}
    (he : s.params.disk[j]'hj = some e) (hn : e.name = nm)
    (huniq : ∀ (k : Nat) (hk : k < 4) (d : DiskEntry), s.params.disk[k]'hk = some d → d.name = nm → k = j) :
    s.findEntry (.name nm) = some e := by
  cases hf : s.findEntry (.name nm) with
  | none => exact absurd hn ((s.findEntry_name_eq_none nm).mp hf j hj e he)
  | some d =>
    obtain ⟨hd, k, hk, hslot⟩ := State.findEntry_name_eq_some hf
    obtain rfl := huniq k hk d hslot hd
    exact hslot.symm.trans he

/-- In UserRunning an entry that fits is copied to 0x200 and `pc` set there (R143). -/
theorem State.load_of_fits {s : State} {sel : LoadSelector} {e : DiskEntry} (hp : s.phase = .userRunning)
    (he : s.findEntry sel = some e) (hlen : e.bytes.length ≤ loadLimit) :
    s.load sel = { s.copyImage e.bytes with pc := 0x200, output := Output.ofLoad .ok } := by
  have hres : s.loadResult sel = .ok := by simp [State.loadResult, hp, he, Nat.not_lt.mpr hlen]
  simp [State.load, hres, he]

theorem State.load_of_not_found {s : State} {sel : LoadSelector} (hp : s.phase = .userRunning)
    (he : s.findEntry sel = none) : s.load sel = { s with output := Output.ofLoad .notFound } := by
  have hres : s.loadResult sel = .notFound := by simp [State.loadResult, hp, he]
  simp [State.load, hres]

theorem State.load_of_too_large {s : State} {sel : LoadSelector} {e : DiskEntry} (hp : s.phase = .userRunning)
    (he : s.findEntry sel = some e) (hlen : loadLimit < e.bytes.length) :
    s.load sel = { s with output := Output.ofLoad .tooLarge } := by
  have hres : s.loadResult sel = .tooLarge := by simp [State.loadResult, hp, he, hlen]
  simp [State.load, hres]

theorem applyEvent_load (s : State) (sel : LoadSelector) : applyEvent (.load sel) s = .next (s.load sel) := rfl

/-- A Load that changes nothing but the output, as a step of the event. -/
theorem applyEvent_load_of_output {s : State} {sel : LoadSelector} {o : Output}
    (h : s.load sel = { s with output := o }) :
    ∃ t : State, applyEvent (.load sel) s = .next t ∧ t.output = o ∧ SameExcept [.output] s t :=
  ⟨{ s with output := o }, by rw [applyEvent_load, h], rfl, sameExcept_output s o⟩

end Sys2Proof.Machine

open Sys2Proof.Machine in
/-- Settles O17: memory is the boot image from 0x1000 and zero elsewhere, every other piece its reset value. -/
theorem resetLeaves : Obligations.ResetLeaves := by
  unfold Obligations.ResetLeaves
  refine ⟨resetWith_default, fun s => ⟨s.resetEvent, rfl, fun r => ?_, rfl, rfl, fun k hk => ?_, rfl, rfl, rfl, rfl,
    rfl, rfl, rfl, clearedFramebuffer_cell, fun a ha => Memory.read_fromImage _ ha, rfl⟩⟩
  · exact readV_replicate s.resetEvent r
  · exact Vector.getElem_replicate hk

open Sys2Proof.Machine in
/-- Settles O18: the event has its effect in every phase after Reset, and each timer goes down by one. -/
theorem tickCountsDown : Obligations.TickCountsDown := by
  unfold Obligations.TickCountsDown
  exact fun s hp => ⟨s.tick, whenInitialized_of_ne hp _, toNat_tickDown s.dt, toNat_tickDown s.st, sameExcept_tick s⟩

open Sys2Proof.Machine in
/-- Settles O19: both events have their effect in every phase after Reset, one on the keys, one on the output. -/
theorem portsTouchOnlyTheirField : Obligations.PortsTouchOnlyTheirField := by
  unfold Obligations.PortsTouchOnlyTheirField
  exact fun s k hp => ⟨⟨s.setKeys k, whenInitialized_of_ne hp _, rfl, sameExcept_setKeys k s⟩,
    ⟨s.readFramebuffer, whenInitialized_of_ne hp _, rfl, sameExcept_readFramebuffer s⟩⟩

open Sys2Proof.Machine in
/-- Settles O20: a running machine takes the exit request, a halted one does not. -/
theorem haltRequestHalts : Obligations.HaltRequestHalts := by
  unfold Obligations.HaltRequestHalts
  refine fun s => ⟨fun hr => ⟨s.haltRequest, rfl, ?_⟩, fun hp => ⟨s.haltRequest, rfl, ?_⟩⟩
  · rcases s.haltRequest_cases with ⟨-, he⟩ | ⟨hn, -⟩
    · rw [he]
      exact ⟨rfl, rfl, by simp [sameExcept_iff, State.readV, State.readByte]⟩
    · exact absurd hr hn
  · rw [State.haltRequest_of_not_running fun hr => hr.ne_halted hp]
    exact sameExcept_output s _

open Sys2Proof.Machine in
/-- Settles O21: the selector by its slot or its name, and the run of writes at 0x200 by its bytes and its frame. -/
theorem loadCopiesImage : Obligations.LoadCopiesImage := by
  unfold Obligations.LoadCopiesImage
  refine ⟨fun s n h => State.diskEntry_of_lt h s,
    fun s nm j hj e he hn huniq => State.findEntry_name_of_unique hj he hn huniq, fun _ => rfl,
    fun s sel e hp he hlen => ⟨_, rfl, ?_⟩⟩
  rw [State.load_of_fits hp he hlen]
  refine ⟨rfl, rfl, fun k hk => readByte_writeBytes s 0x200 hk, bytesExcept_writeBytes s 0x200 e.bytes, ?_⟩
  simp [sameExcept_iff, State.readV]

open Sys2Proof.Machine in
/-- Settles O22: the three ways a Load fails are three results that write the output only. -/
theorem loadFailureChangesNothing : Obligations.LoadFailureChangesNothing := by
  unfold Obligations.LoadFailureChangesNothing
  refine ⟨fun s n h => State.diskEntry_of_gt h s, fun s nm h => (s.findEntry_name_eq_none nm).mpr h,
    fun s sel => ⟨fun hp => ?_, fun hp he => ?_, fun e hp he hlen => ?_⟩⟩
  · exact applyEvent_load_of_output (State.load_of_ne_userRunning hp sel)
  · exact applyEvent_load_of_output (State.load_of_not_found hp he)
  · exact applyEvent_load_of_output (State.load_of_too_large hp he hlen)
end

section
/-! PROOFS. The instructions on registers, stack and keys (spec 40_family0_cls_ret.md, 41_jump_call.md, 42_skip.md,
43_immediate.md, 44_alu.md, 46_keys.md, 47_fx_user.md) and the address check (20_memory.md R37): each brought to the
operation it ends in, whose frame is known. -/

namespace Sys2Proof.Machine

/-! ### The address check (R35, R36, R37) -/

theorem State.check_of_ge {s : State} {a : Nat} (h : memSize ≤ a) : s.check a = some (.outOfBoundsAccess a) :=
  if_pos h

theorem State.check_of_user_kernelRegion {s : State} {a : Nat} (hk : kernelBase ≤ a) (ha : a < memSize)
    (hm : s.mode = .user) : s.check a = some (.privilegeViolationAt a) := by
  rw [State.check, if_neg (Nat.not_le.mpr ha), if_pos ⟨hm, hk⟩]

/-! ### The call stack -/

theorem exec_ret (s : State) : exec .ret s = if s.sp = 0 then raise .stackUnderflow s else s.pop := rfl

theorem exec_call (nnn : Addr12) (s : State) :
    exec (.call nnn) s = if s.sp = 16 then raise .stackOverflow s else s.push (s.pc + 2) (zextAddr nnn) := rfl

/-- RET with an entry in use takes the top one (R61). -/
theorem exec_ret_of_used {s : State} {k : Nat} (hk : k < 16) (hsp : s.sp.toNat = k + 1) :
    exec .ret s = .next ({ s with sp := s.sp - 1 }.jump (s.stack[k]'hk)) := by
  have h0 : s.sp ≠ 0 := by bv_omega
  have htop : (s.sp - 1).toNat = k := by bv_omega
  rw [exec_ret, if_neg h0, State.pop_of_lt (by omega)]
  simp only [htop]

/-- CALL with room pushes the address after it (R63). -/
theorem exec_call_of_room {s : State} (h : s.sp.toNat < 16) (nnn : Addr12) :
    exec (.call nnn) s =
      .next ({ s with stack := s.stack.set s.sp.toNat (s.pc + 2) h, sp := s.sp + 1 }.jump (zextAddr nnn)) := by
  have hfull : s.sp ≠ 16 := by bv_omega
  rw [exec_call, if_neg hfull, State.push_of_lt h]

theorem exec_ret_of_noStackEntry {s : State} (h : 16 < s.sp.toNat) : exec .ret s = .fault (.noStackEntry s.sp) := by
  have h0 : s.sp ≠ 0 := by bv_omega
  rw [exec_ret, if_neg h0, State.pop, dif_neg (by bv_omega)]

theorem exec_call_of_noStackEntry {s : State} (h : 16 < s.sp.toNat) (nnn : Addr12) :
    exec (.call nnn) s = .fault (.noStackEntry s.sp) := by
  have hfull : s.sp ≠ 16 := by bv_omega
  rw [exec_call, if_neg hfull, State.push, dif_neg (by omega)]

/-- An instruction that raises a fault halts by it, with the fault's code (R110, R111). -/
theorem raise_haltedBy (f : FatalFault) (s : State) :
    ∃ t : State, raise f s = .next t ∧ HaltedBy f s t ∧ t.haltCause.code = f.cause.code :=
  ⟨s.halt f, rfl, haltedBy_halt f s, rfl⟩

/-- A control transfer, with its target and its frame (R13). -/
theorem completeAt_next (target : Word) (s : State) :
    ∃ t : State, completeAt target s = .next t ∧ t.pc = target ∧ t.output = Output.ofCycle .ok ∧
      SameExcept [.pc, .output] s t :=
  ⟨s.jump target, rfl, rfl, rfl, sameExcept_jump s target⟩

/-! ### Jumps and skips -/

theorem exec_jp (nnn : Addr12) (s : State) : exec (.jp nnn) s = completeAt (zextAddr nnn) s := rfl

theorem exec_jpV0 (nnn : Addr12) (s : State) :
    exec (.jpV0 nnn) s = completeAt (zextAddr nnn + zextByte (s.readV 0)) s := rfl

theorem exec_seReg (x y : Nibble) (s : State) :
    exec (.seReg x y) s = skipWhen (s.readV x == s.readV y) s := rfl

theorem exec_sneReg (x y : Nibble) (s : State) :
    exec (.sneReg x y) s = skipWhen (s.readV x != s.readV y) s := rfl

theorem exec_skp (x : Nibble) (s : State) :
    exec (.skp x) s = if 15 < (s.readV x).toNat then raise (.keyIndexOutOfRange (s.readV x)) s
      else skipWhen (s.keys.getLsbD (s.readV x).toNat) s := rfl

theorem exec_sknp (x : Nibble) (s : State) :
    exec (.sknp x) s = if 15 < (s.readV x).toNat then raise (.keyIndexOutOfRange (s.readV x)) s
      else skipWhen (!s.keys.getLsbD (s.readV x).toNat) s := rfl

/-! ### Family 8 with a flag -/

theorem exec_addReg (x y : Nibble) (s : State) :
    exec (.addReg x y) s =
      completeWithFlag s x (s.readV x + s.readV y) (carryFlag (s.readV x) (s.readV y)) := rfl

theorem exec_subReg (x y : Nibble) (s : State) :
    exec (.subReg x y) s =
      completeWithFlag s x (s.readV x - s.readV y) (noBorrowFlag (s.readV x) (s.readV y)) := rfl

theorem exec_subn (x y : Nibble) (s : State) :
    exec (.subn x y) s =
      completeWithFlag s x (s.readV y - s.readV x) (noBorrowFlag (s.readV y) (s.readV x)) := rfl

theorem exec_shr (x y : Nibble) (s : State) :
    exec (.shr x y) s = completeWithFlag s x (s.readV x >>> 1) (shiftRightFlag (s.readV x)) := rfl

theorem exec_shl (x y : Nibble) (s : State) :
    exec (.shl x y) s = completeWithFlag s x (s.readV x <<< 1) (shiftLeftFlag (s.readV x)) := rfl

theorem flagOf_decide (P : Prop) [Decidable P] : flagOf (decide P) = if P then 1 else 0 := by
  by_cases h : P <;> simp [flagOf, h]

theorem toNat_flagOf (c : Bool) : (flagOf c).toNat = c.toNat := by
  cases c <;> rfl

/-- The difference of two bytes modulo 256 (R78). -/
theorem toNat_sub_byte (a b : Byte) : (a - b).toNat = (a.toNat + 256 - b.toNat) % 256 := by
  have hb : b.toNat < 256 := b.isLt
  rw [BitVec.toNat_sub]
  omega

theorem toNat_shiftRight_one (a : Byte) : (a >>> 1).toNat = a.toNat / 2 := by
  rw [BitVec.toNat_ushiftRight, Nat.shiftRight_eq_div_pow]

theorem toNat_shiftLeft_one (a : Byte) : (a <<< 1).toNat = a.toNat * 2 % 256 := by
  rw [BitVec.toNat_shiftLeft, Nat.shiftLeft_eq]

theorem toNat_shiftRightFlag (a : Byte) : (shiftRightFlag a).toNat = a.toNat % 2 := by
  rw [shiftRightFlag, toNat_flagOf, BitVec.getLsbD, Nat.toNat_testBit, Nat.pow_zero, Nat.div_one]

/-- Bit 7 of a byte is what is left of it above 127. -/
theorem toNat_shiftLeftFlag (a : Byte) : (shiftLeftFlag a).toNat = a.toNat / 128 := by
  have ha : a.toNat < 256 := a.isLt
  rw [shiftLeftFlag, toNat_flagOf, BitVec.getLsbD, Nat.toNat_testBit]
  omega

/-- A result and a flag, with what is known of the two (R82). -/
theorem completeWithFlag_next (s : State) (x : Nibble) {result flag : Byte} {P Q : Byte → Prop} (hr : P result)
    (hf : Q flag) :
    ∃ (t : State) (b f : Byte), completeWithFlag s x result flag = .next t ∧ P b ∧ Q f ∧
      SetsRegisterAndFlag x b f s t := by
  obtain ⟨hnext, hsets⟩ := setsRegisterAndFlag_complete s x result flag
  exact ⟨_, result, flag, hnext, hr, hf, hsets⟩

/-! ### Random byte, key wait, address register -/

theorem exec_rnd (x : Nibble) (nn : Byte) (s : State) :
    exec (.rnd x nn) s =
      complete { s.writeV x (Config.randomByte s.draws &&& nn) with draws := s.draws + 1 } := rfl

/-- A masked byte has no bit outside the mask. -/
theorem and_mask_and_not (b nn : Byte) : b &&& nn &&& ~~~nn = 0 := by
  rw [BitVec.and_assoc, BitVec.and_not_self]
  exact BitVec.and_zero

theorem exec_addI (x : Nibble) (s : State) :
    exec (.addI x) s = complete { s with regI := s.regI + zextByte (s.readV x) } := rfl

/-- With a key down LD Vx, K stores the key picked (R89). -/
theorem exec_ldVxK_of_some {s : State} {k : Byte} (h : keyPick s.params s.keys = some k) (x : Nibble) :
    exec (.ldVxK x) s = complete (s.writeV x k) := by
  show execLdVxK x s = _
  rw [execLdVxK, h]

/-- With no key down it is repeated (R89). -/
theorem exec_ldVxK_of_none {s : State} (h : keyPick s.params s.keys = none) (x : Nibble) :
    exec (.ldVxK x) s = .next { s with output := Output.ofCycle .repeat_ } := by
  show execLdVxK x s = _
  rw [execLdVxK, h]

/-- When some key is down one of those down is picked (R89). -/
theorem exists_keyPick {p : Params} {keys : BitVec 16} {j : Nat} (hj : j < 16) (hdown : keys.getLsbD j = true) :
    ∃ k : Byte, keyPick p keys = some k := by
  cases h : keyPick p keys with
  | some k => exact ⟨k, rfl⟩
  | none =>
    have hup := (keyPick_eq_none p keys).mp h j hj
    rw [hdown] at hup
    cases hup

end Sys2Proof.Machine

open Sys2Proof.Machine in
/-- Settles O23: the two tests of the check, in order. -/
theorem addressCheckByModeAndRange : Obligations.AddressCheckByModeAndRange := by
  unfold Obligations.AddressCheckByModeAndRange
  refine fun s a => ⟨State.check_of_ge, State.check_of_user_kernelRegion, fun h hk => ?_, fun h => ?_⟩
  · exact (s.check_eq_none a).mpr ⟨h, fun hu => by simp [hk] at hu⟩
  · exact (s.check_eq_none a).mpr ⟨Nat.lt_trans h (by decide), fun _ => h⟩

open Sys2Proof.Machine in
/-- Settles O31: the entry below `sp` is the target, and `sp` goes down by one. -/
theorem retPops : Obligations.RetPops := by
  unfold Obligations.RetPops
  intro s k hk hsp
  refine ⟨_, exec_ret_of_used hk hsp, ?_, rfl, rfl, (sameExcept_sp s _).jump _⟩
  show (s.sp - 1).toNat = k
  bv_omega

open Sys2Proof.Machine in
/-- Settles O32: the entry at `sp` is written, no other, and `sp` goes up by one. -/
theorem callPushes : Obligations.CallPushes := by
  unfold Obligations.CallPushes
  rintro s nnn k hk rfl
  refine ⟨_, exec_call_of_room hk nnn, ?_, Vector.getElem_set_self hk, fun j hj hne => ?_, toNat_zextAddr nnn, rfl,
    (sameExcept_stack_sp s _ _).jump _⟩
  · show (s.sp + 1).toNat = s.sp.toNat + 1
    bv_omega
  · exact Vector.getElem_set_ne hk hj (Ne.symm hne)

open Sys2Proof.Machine in
/-- Settles O33: a full and an empty stack raise their faults, and an `sp` above 16 finds no entry. -/
theorem stackFaults : Obligations.StackFaults := by
  unfold Obligations.StackFaults
  refine fun s nnn => ⟨fun h => ?_, fun h => ?_, fun h => exec_call_of_noStackEntry h nnn, exec_ret_of_noStackEntry⟩
  · rw [exec_call, if_pos h]
    exact raise_haltedBy .stackOverflow s
  · rw [exec_ret, if_pos h]
    exact raise_haltedBy .stackUnderflow s

open Sys2Proof.Machine in
/-- Settles O34: RET takes the entry CALL wrote, since stack and `sp` are those CALL left. -/
theorem callReturnRoundTrip : Obligations.CallReturnRoundTrip := by
  unfold Obligations.CallReturnRoundTrip
  intro s t u nnn hroom hcall hstack hsp
  rw [exec_call_of_room hroom] at hcall
  cases hcall
  have hused : u.sp.toNat = s.sp.toNat + 1 := by
    rw [hsp]
    show (s.sp + 1).toNat = _
    bv_omega
  refine ⟨_, exec_ret_of_used hroom hused, ?_, ?_⟩
  · show u.stack[s.sp.toNat]'hroom = s.pc + 2
    simp [hstack]
  · show u.sp - 1 = s.sp
    bv_omega

open Sys2Proof.Machine in
/-- Settles O35: both are control transfers, the first to `nnn`, the second to a sum that does not wrap. -/
theorem jumpTargets : Obligations.JumpTargets := by
  unfold Obligations.JumpTargets
  intro s nnn
  rw [exec_jp, exec_jpV0]
  obtain ⟨t, ht, hpc, hout⟩ := completeAt_next (zextAddr nnn) s
  obtain ⟨u, hu, hpc', hout'⟩ := completeAt_next (zextAddr nnn + zextByte (s.readV 0)) s
  refine ⟨⟨t, ht, ?_, hout⟩, u, hu, ?_, hout'⟩
  · rw [hpc, toNat_zextAddr]
  · rw [hpc', toNat_zextAddr_add_zextByte]

open Sys2Proof.Machine in
/-- Settles O37: each is the conditional skip on `V[x]` and `V[y]`. -/
theorem skipRegister : Obligations.SkipRegister := by
  unfold Obligations.SkipRegister
  intro s x y
  rw [exec_seReg, exec_sneReg]
  exact ⟨skipWhen_next beq_iff_eq s, skipWhen_next bne_iff_ne s⟩

open Sys2Proof.Machine in
/-- Settles O38: with a key number up to 15 each is the conditional skip on that key. -/
theorem skipOnKey : Obligations.SkipOnKey := by
  unfold Obligations.SkipOnKey
  intro s x h
  rw [exec_skp, exec_sknp, if_neg (Nat.not_lt.mpr h), if_neg (Nat.not_lt.mpr h)]
  exact ⟨skipWhen_next Iff.rfl s, skipWhen_next (by simp) s⟩

open Sys2Proof.Machine in
/-- Settles O39: with a key number above 15 each raises KeyIndexOutOfRange. -/
theorem keyNumberAboveFifteenHalts : Obligations.KeyNumberAboveFifteenHalts := by
  unfold Obligations.KeyNumberAboveFifteenHalts
  intro s x h
  rw [exec_skp, exec_sknp, if_pos h, if_pos h]
  exact ⟨raise_haltedBy _ s, raise_haltedBy _ s⟩

open Sys2Proof Sys2Proof.Machine in
/-- Settles O43: one write of `V[x]` and one of the draw counter that complete. -/
theorem randomUnderMask : Obligations.RandomUnderMask := by
  unfold Obligations.RandomUnderMask
  intro s x nn
  rw [exec_rnd]
  have hx : (s.writeV x (Config.randomByte s.draws &&& nn)).readV x = Config.randomByte s.draws &&& nn :=
    State.readV_writeV_self s x _
  have frame := (sameExcept_writeV s x (Config.randomByte s.draws &&& nn)).trans (sameExcept_draws _ (s.draws + 1))
  exact ⟨_, rfl, hx, (congrArg (· &&& ~~~nn) hx).trans (and_mask_and_not _ nn), rfl,
    fun r hr => State.readV_writeV_ne s x r _ hr, frame.retireWith .ok, rfl, rfl⟩

open Sys2Proof.Machine in
/-- Settles O45: the three end in a result and a flag, each its sum, difference or comparison of the operands. -/
theorem addSubtractSetFlag : Obligations.AddSubtractSetFlag := by
  unfold Obligations.AddSubtractSetFlag
  intro s x y
  rw [exec_addReg, exec_subReg, exec_subn]
  exact ⟨completeWithFlag_next s x (BitVec.toNat_add _ _) (flagOf_decide _),
    completeWithFlag_next s x (toNat_sub_byte _ _) (flagOf_decide _),
    completeWithFlag_next s x (toNat_sub_byte _ _) (flagOf_decide _)⟩

open Sys2Proof.Machine in
/-- Settles O46: the two end in a result and a flag, the halved or doubled byte and its lowest or highest bit. -/
theorem shiftsSetShiftedBit : Obligations.ShiftsSetShiftedBit := by
  unfold Obligations.ShiftsSetShiftedBit
  intro s x y
  rw [exec_shr, exec_shl]
  exact ⟨completeWithFlag_next s x (toNat_shiftRight_one _) (toNat_shiftRightFlag _),
    completeWithFlag_next s x (toNat_shiftLeft_one _) (toNat_shiftLeftFlag _)⟩

open Sys2Proof.Machine in
/-- Settles O50: what is done turns on whether KEY_PICK picks a key, which it does when one is down. -/
theorem keyWait : Obligations.KeyWait := by
  unfold Obligations.KeyWait
  refine fun s x => ⟨fun hup => ?_, fun j hj hdown => ?_⟩
  · have hnone : keyPick s.params s.keys = none := (keyPick_eq_none _ _).mpr hup
    exact ⟨_, exec_ldVxK_of_none hnone x, rfl, sameExcept_output s _⟩
  · obtain ⟨k, hk⟩ := exists_keyPick (p := s.params) hj hdown
    obtain ⟨hlt, hkdown⟩ := keyPick_eq_some hk
    obtain ⟨hnext, hsets⟩ := setsRegister_complete s x k
    refine ⟨_, k.toNat, (exec_ldVxK_of_some hk x).trans hnext, hlt, hkdown, ?_, fun hp => keyPick_lowest hp hk⟩
    rwa [BitVec.ofNat_toNat, BitVec.setWidth_eq]

open Sys2Proof.Machine in
/-- Settles O51: one write of `I` that completes, by the sum of two sixteen-bit words. -/
theorem addIndexWraps : Obligations.AddIndexWraps := by
  unfold Obligations.AddIndexWraps
  intro s x
  rw [exec_addI]
  obtain ⟨t, ht, hregI, frame⟩ := complete_regI s (s.regI + zextByte (s.readV x))
  refine ⟨t, ht, ?_, frame⟩
  rw [hregI, BitVec.toNat_add, toNat_zextByte]
end

section
/-! PROOFS. The instructions on memory and the kernel services (spec 47_fx_user.md R94, R95, R96,
48_kernel_syscalls.md R99 to R104): a run that passes the check is written or read byte by byte, and a syscall word
runs its service in Kernel mode and faults in User mode. -/

namespace Sys2Proof.Machine

/-! ### Runs of bytes at `I` -/

theorem exec_ldB_of_accessible {s : State} (h : s.Accessible s.dataAddr 3) (x : Nibble) :
    exec (.ldB x) s =
      .next ({ s with mem := s.mem.writeBytes s.dataAddr (bcdDigits (s.readV x)) }.retireWith .ok) :=
  withAccess_of_accessible h _

theorem exec_storeRegs_of_accessible {s : State} {x : Nibble} (h : s.Accessible s.dataAddr (x.toNat + 1)) :
    exec (.storeRegs x) s =
      .next ({ s with mem := s.mem.writeBytes s.dataAddr (s.regRun x) }.retireWith .ok) :=
  withAccess_of_accessible h _

theorem exec_loadRegs_of_accessible {s : State} {x : Nibble} (h : s.Accessible s.dataAddr (x.toNat + 1)) :
    exec (.loadRegs x) s =
      .next ({ s with v := loadRun s.v (s.mem.readBytes s.dataAddr (runLength x)) }.retireWith .ok) :=
  withAccess_of_accessible h _

/-- Byte `r` of the run is `V[r]` (R95). -/
theorem getD_regRun (s : State) {x r : Nibble} (h : r.toNat ≤ x.toNat) : (s.regRun x).getD r.toNat 0 = s.readV r := by
  have hlt : r.toNat < runLength x := Nat.lt_succ_of_le h
  have hr : r.toNat < 16 := r.isLt
  simp [State.regRun, State.readV, List.getD, hlt, hr]

/-- A register up to `x` is loaded with its byte (R96). -/
theorem readV_loadRegs_of_le (s : State) {x r : Nibble} (h : r.toNat ≤ x.toNat) :
    ({ s with v := loadRun s.v (s.mem.readBytes s.dataAddr (runLength x)) } : State).readV r =
      s.readByte (s.dataAddr + r.toNat) := by
  have hlt : r.toNat < runLength x := Nat.lt_succ_of_le h
  rw [readV_loadRun, Memory.getElem?_readBytes, if_pos hlt]
  rfl

/-- A register above `x` is kept (R96). -/
theorem readV_loadRegs_of_lt (s : State) {x r : Nibble} (h : x.toNat < r.toNat) :
    ({ s with v := loadRun s.v (s.mem.readBytes s.dataAddr (runLength x)) } : State).readV r = s.readV r := by
  have hge : ¬ r.toNat < runLength x := Nat.not_lt.mpr h
  rw [readV_loadRun, Memory.getElem?_readBytes, if_neg hge]
  rfl

theorem toNat_bcdDigits (b : Byte) :
    ((bcdDigits b).getD 0 0).toNat = b.toNat / 100 ∧ ((bcdDigits b).getD 1 0).toNat = b.toNat / 10 % 10 ∧
    ((bcdDigits b).getD 2 0).toNat = b.toNat % 10 := by
  simp [bcdDigits, BitVec.toNat_udiv, BitVec.toNat_umod]

/-! ### Kernel services -/

section
variable {s : State}

theorem exec_kreset_of_kernel (h : s.mode = .kernel) : exec .kreset s = complete s.kernelReset :=
  syscall_of_kernel h 0x00 _

theorem exec_kioreset_of_kernel (h : s.mode = .kernel) :
    exec .kioreset s = complete { s with fb := clearedFramebuffer, dt := 0, st := 0, keys := 0 } :=
  syscall_of_kernel h 0x04 _

theorem exec_kshell_of_kernel (h : s.mode = .kernel) :
    exec .kshell s = .next { s.retireWith .ok with output := { report := .cycle .ok, shellInit := true } } :=
  syscall_of_kernel h 0x06 _

theorem exec_kload_of_kernel (h : s.mode = .kernel) : exec .kload s = kernelLoad s :=
  syscall_of_kernel h 0x08 _

theorem exec_ksys_of_kernel (h : s.mode = .kernel) (nn : Byte) :
    exec (.ksys nn) s = completeDiag (.unknownOpcode (syscallWord nn) s.pc) s :=
  syscall_of_kernel h nn _

/-- The font bytes stand at 0x050 (R99). -/
theorem readByte_kernelReset_font (s : State) {j : Nat} (hj : j < 80) :
    s.kernelReset.readByte (0x50 + j) = s.params.fontTable[j]'hj := by
  show (s.mem.clearLow.writeBytes fontBase s.params.fontTable.toList).read (fontBase + j) = _
  have hin : fontBase ≤ fontBase + j ∧ fontBase + j < fontBase + s.params.fontTable.toList.length := by
    simpa using hj
  rw [Memory.read_writeBytes, if_pos hin, Nat.add_sub_cancel_left]
  simp [List.getD, hj]

/-- Outside the font a byte is zero below the kernel region and kept from there up (R99). -/
theorem readByte_kernelReset_of_outside (s : State) {a : Nat} (h : a < 0x50 ∨ 0xA0 ≤ a) :
    s.kernelReset.readByte a = if a < kernelBase then 0 else s.readByte a := by
  show (s.mem.clearLow.writeBytes fontBase s.params.fontTable.toList).read a = _
  have hout : ¬ (fontBase ≤ a ∧ a < fontBase + s.params.fontTable.toList.length) := by
    simp only [fontBase, Vector.length_toList]
    omega
  rw [Memory.read_writeBytes, if_neg hout, Memory.read_clearLow]
  rfl

theorem kernelLoad_of_none (h : s.diskEntry (s.readV 0).toNat = none) :
    kernelLoad s = completeDiag (.diskEntryNotFound (s.readV 0)) s := by
  rw [kernelLoad, h]

theorem kernelLoad_of_fits {e : DiskEntry} (h : s.diskEntry (s.readV 0).toNat = some e)
    (hlen : e.bytes.length ≤ loadLimit) : kernelLoad s = completeAt 0x200 (s.copyImage e.bytes) := by
  rw [kernelLoad, h]
  exact if_neg (Nat.not_lt.mpr hlen)

theorem kernelLoad_of_too_large {e : DiskEntry} (h : s.diskEntry (s.readV 0).toNat = some e)
    (hlen : loadLimit < e.bytes.length) : kernelLoad s = completeDiag (.loadTooLarge (s.readV 0)) s := by
  rw [kernelLoad, h]
  exact if_pos hlen

/-- A no-op with a diagnostic, with its frame (R51, R125). -/
theorem completeDiag_next (d : Diagnostic) (s : State) :
    ∃ t : State, completeDiag d s = .next t ∧ t.pc = s.pc + 2 ∧ t.output = Output.ofCycle (.diag d) ∧
      SameExcept [.pc, .output] s t :=
  ⟨s.retireWith (.diag d), rfl, rfl, rfl, sameExcept_retireWith s _⟩

/-- The word of a syscall id (R98). -/
theorem syscallWord_eq (nn : Byte) : syscallWord nn = BitVec.ofNat 16 (0xF000 + nn.toNat) := by
  have hn : nn.toNat < 256 := nn.isLt
  have hword : (syscallWord nn).toNat = 0xF000 + nn.toNat := toNat_joinBytes 0xF0 nn
  exact BitVec.eq_of_toNat_eq (by rw [hword, BitVec.toNat_ofNat]; omega)

/-- In User mode a syscall word halts by PrivilegeViolation with its word and code 4 (R104, D1, D9). -/
theorem syscall_haltedBy_of_user (h : s.mode = .user) (nn : Byte) (o : Host.Outcome State Fault Refusal) :
    ∃ t : State, syscall nn o s = .next t ∧ HaltedBy (.privilegeViolationWord (syscallWord nn)) s t ∧
      t.haltCause.code = 4 :=
  ⟨_, syscall_of_user h nn o, haltedBy_halt _ s, rfl⟩

end

end Sys2Proof.Machine

open Sys2Proof.Machine in
/-- Settles O52: the three digits are the run of bytes written at `I`. -/
theorem bcdStoresDigits : Obligations.BcdStoresDigits := by
  unfold Obligations.BcdStoresDigits
  intro s x h
  obtain ⟨hundreds, tens, ones⟩ := toNat_bcdDigits (s.readV x)
  have stored {k : Nat} (hk : k < 3) := readByte_writeBytes s s.dataAddr (bs := bcdDigits (s.readV x)) hk
  refine ⟨rfl, _, exec_ldB_of_accessible h x, ?_, ?_, ?_, bytesExcept_writeBytes s s.dataAddr (bcdDigits (s.readV x)),
    (sameExcept_mem s _).retireWith .ok, rfl, rfl⟩
  · exact (congrArg BitVec.toNat (stored (k := 0) (by decide))).trans hundreds
  · exact (congrArg BitVec.toNat (stored (k := 1) (by decide))).trans tens
  · exact (congrArg BitVec.toNat (stored (k := 2) (by decide))).trans ones

open Sys2Proof.Machine in
/-- Settles O53: the registers up to `V[x]` are the run of bytes written at `I`. -/
theorem storeRegisterRun : Obligations.StoreRegisterRun := by
  unfold Obligations.StoreRegisterRun
  intro s x h
  have hlen : (s.regRun x).length = x.toNat + 1 := length_regRun s x
  refine ⟨rfl, _, exec_storeRegs_of_accessible h, fun r hr => ?_, ?_, (sameExcept_mem s _).retireWith .ok, rfl, rfl⟩
  · exact (readByte_writeBytes s s.dataAddr (by omega)).trans (getD_regRun s hr)
  · rw [← hlen]
    exact bytesExcept_writeBytes s s.dataAddr (s.regRun x)

open Sys2Proof.Machine in
/-- Settles O54: the registers up to `V[x]` are the bytes read at `I`, and the others are kept. -/
theorem loadRegisterRun : Obligations.LoadRegisterRun := by
  unfold Obligations.LoadRegisterRun
  intro s x h
  exact ⟨rfl, _, exec_loadRegs_of_accessible h, fun r hr => readV_loadRegs_of_le s hr,
    fun r hr => readV_loadRegs_of_lt s hr, (sameExcept_v s _).retireWith .ok, rfl, rfl⟩

open Sys2Proof.Machine in
/-- Settles O55: low memory is zeroed and then the font written; the other pieces are zeroed as they stand. -/
theorem kernelResetExtent : Obligations.KernelResetExtent := by
  unfold Obligations.KernelResetExtent
  intro s hm
  rw [exec_kreset_of_kernel hm]
  refine ⟨_, rfl, fun r => readV_replicate s.kernelReset r, rfl, fun k hk => Vector.getElem_replicate hk, rfl,
    fun j hj => readByte_kernelReset_font s hj, fun a ha => ?_, fun a ha => ?_,
    (sameExcept_kernelReset s).retireWith .ok, rfl, rfl⟩
  · exact (readByte_kernelReset_of_outside s (by omega)).trans (if_pos (by simp only [kernelBase]; omega))
  · exact (readByte_kernelReset_of_outside s (by omega)).trans (if_neg (Nat.not_lt.mpr ha))

open Sys2Proof.Machine in
/-- Settles O56: KIORESET completes four writes, KSHELL completes with the one output that carries ShellInit. -/
theorem ioResetAndShell : Obligations.IoResetAndShell := by
  unfold Obligations.IoResetAndShell
  intro s hm
  rw [exec_kioreset_of_kernel hm, exec_kshell_of_kernel hm]
  exact ⟨fun o => ⟨rfl, rfl⟩,
    ⟨_, rfl, clearedFramebuffer_cell, rfl, rfl, rfl, (sameExcept_ioReset s).retireWith .ok, rfl, rfl⟩,
    ⟨_, rfl, rfl, rfl, rfl, ((sameExcept_retireWith s .ok).trans (sameExcept_output _ _)).mono (by decide)⟩⟩

open Sys2Proof.Machine in
/-- Settles O57: KLOAD is a control transfer from the state with the image copied, or a no-op with a diagnostic. -/
theorem kernelLoad : Obligations.KernelLoad := by
  unfold Obligations.KernelLoad
  refine ⟨fun s n h => State.diskEntry_of_lt h s, fun s n h => State.diskEntry_of_gt h s, fun s hm => ?_⟩
  rw [exec_kload_of_kernel hm]
  refine ⟨fun e he hlen => ?_, fun he => ?_, fun e he hlen => ?_⟩
  · rw [kernelLoad_of_fits he hlen]
    exact ⟨_, rfl, rfl, rfl, fun k hk => readByte_writeBytes s 0x200 hk, bytesExcept_writeBytes s 0x200 e.bytes,
      (sameExcept_copyImage s e.bytes).jump 0x200⟩
  · rw [kernelLoad_of_none he]
    exact completeDiag_next _ s
  · rw [kernelLoad_of_too_large he hlen]
    exact completeDiag_next _ s

open Sys2Proof.Machine in
/-- Settles O58: a no-op with a diagnostic, whose word is 0xF000 plus the id. -/
theorem undefinedSyscallIsNoOp : Obligations.UndefinedSyscallIsNoOp := by
  unfold Obligations.UndefinedSyscallIsNoOp
  intro s nn hm
  rw [exec_ksys_of_kernel hm, ← syscallWord_eq]
  exact completeDiag_next _ s

open Sys2Proof.Machine in
/-- Settles O59: the five are one router, which faults in User mode before any service. -/
theorem userSyscallHalts : Obligations.UserSyscallHalts := by
  unfold Obligations.UserSyscallHalts
  intro s nn hm
  rw [← syscallWord_eq]
  exact ⟨syscall_haltedBy_of_user hm 0x00 _, syscall_haltedBy_of_user hm 0x04 _, syscall_haltedBy_of_user hm 0x06 _,
    syscall_haltedBy_of_user hm 0x08 _, syscall_haltedBy_of_user hm nn _⟩
end

section
/-! PROOFS. Drawing (spec 45_draw.md R83, R84): the cells a sprite leaves are known from the laws of its pixels,
columns and rows; here it is shown when one of its pixels hits a set cell, and that a second draw undoes the first. -/

namespace Sys2Proof.Machine

/-! ### Collisions -/

/-- The picture `p` has a pixel on a set cell of the framebuffer. -/
def Hits (fb : Framebuffer) (p : Nat → Bool) : Prop := ∃ k : Nat, k < 2048 ∧ fb.cell k = true ∧ p k = true

/-- What one pixel draws (R83). -/
def pixelMask (on : Bool) (cx cy k : Nat) : Bool := on && decide (k % 64 = cx ∧ k / 64 = cy)

/-- What the last `n` columns of a sprite row draw (R83, R84). -/
def columnsMask (b : Byte) (x0 cy n k : Nat) : Bool :=
  decide (k / 64 = cy ∧ x0 + 8 ≤ k % 64 + n ∧ k % 64 < x0 + 8) && spriteBit b (k % 64 - x0)

/-- The picture `r` is drawn in two parts, `p` and then `q`, that share no cell. Then the second part hits what it
would have hit before the first was drawn, so a hit of either is a hit of the whole. -/
theorem hits_of_parts {fb fb' fb'' : Framebuffer} {p q r : Nat → Bool}
    (hp : ∀ k, k < 2048 → fb'.cell k = (fb.cell k ^^ p k)) (hq : ∀ k, k < 2048 → fb''.cell k = (fb'.cell k ^^ q k))
    (hr : ∀ k, k < 2048 → fb''.cell k = (fb.cell k ^^ r k)) (hdisj : ∀ k, p k = true → q k = false) :
    Hits fb p ∨ Hits fb' q ↔ Hits fb r := by
  have cell : ∀ k, k < 2048 → ((fb.cell k = true ∧ p k = true) ∨ (fb'.cell k = true ∧ q k = true) ↔
      fb.cell k = true ∧ r k = true) := by
    intro k hk
    have hsplit : r k = (p k ^^ q k) := by
      have hxor := (hr k hk).symm.trans (hq k hk)
      rwa [hp k hk, Bool.xor_assoc, Bool.xor_right_inj] at hxor
    have hd := hdisj k
    rw [hp k hk, hsplit]
    cases hpk : p k with
    | true => simp [hd hpk]
    | false => simp
  constructor
  · rintro (⟨k, hk, h⟩ | ⟨k, hk, h⟩)
    · exact ⟨k, hk, (cell k hk).mp (.inl h)⟩
    · exact ⟨k, hk, (cell k hk).mp (.inr h)⟩
  · rintro ⟨k, hk, h⟩
    rcases (cell k hk).mpr h with h | h
    · exact .inl ⟨k, hk, h⟩
    · exact .inr ⟨k, hk, h⟩

/-- A 0 bit, and a pixel outside the grid, changes nothing (R83). -/
theorem drawPixel_of_not_drawn {on : Bool} {cx cy : Nat} (h : ¬ (cy < 32 ∧ on = true ∧ cx < 64)) (cv : Canvas) :
    drawPixel cv on cx cy = cv := by
  unfold drawPixel
  split
  · next hcy => exact if_neg fun hon => h ⟨hcy, hon⟩
  · rfl

/-- One pixel collides when its cell is set (R83). -/
theorem drawPixel_hits (cv : Canvas) (on : Bool) (cx cy : Nat) :
    (drawPixel cv on cx cy).2 = true ↔ cv.2 = true ∨ Hits cv.1 (pixelMask on cx cy) := by
  by_cases hin : cy < 32 ∧ on = true ∧ cx < 64
  · obtain ⟨hcy, rfl, hcx⟩ := hin
    have hk : cy * 64 + cx < 2048 := by omega
    have hrow : (cy * 64 + cx) / 64 = cy := by omega
    have hcol : (cy * 64 + cx) % 64 = cx := by omega
    have hcell : cv.1.cell (cy * 64 + cx) = cv.1[cy].getLsbD cx := by
      simp [Framebuffer.cell, hrow, hcol, hcy]
    rw [drawPixel, dif_pos hcy, if_pos ⟨rfl, hcx⟩, Bool.or_eq_true, ← hcell]
    refine or_congr_right ⟨fun h => ⟨_, hk, h, by simp [pixelMask, hrow, hcol]⟩, ?_⟩
    rintro ⟨k, -, hset, hmask⟩
    obtain ⟨hc, hr⟩ : k % 64 = cx ∧ k / 64 = cy := by simpa [pixelMask] using hmask
    obtain rfl : k = cy * 64 + cx := by omega
    exact hset
  · have hmiss : ¬ Hits cv.1 (pixelMask on cx cy) := by
      rintro ⟨k, hk, -, hmask⟩
      obtain ⟨hon, hc, hr⟩ : on = true ∧ k % 64 = cx ∧ k / 64 = cy := by simpa [pixelMask] using hmask
      exact hin ⟨by omega, hon, by omega⟩
    rw [drawPixel_of_not_drawn hin, or_iff_left hmiss]

/-- The columns of a sprite row collide when the row has a pixel on a set cell (R83). -/
theorem drawColumns_hits (b : Byte) (x0 cy : Nat) : ∀ (n : Nat) (cv : Canvas), n ≤ 8 →
    ((drawColumns cv b x0 cy n).2 = true ↔ cv.2 = true ∨ Hits cv.1 (columnsMask b x0 cy n))
  | 0, cv, _ => by
    have hmiss : ¬ Hits cv.1 (columnsMask b x0 cy 0) := by
      rintro ⟨k, -, -, hmask⟩
      simp only [columnsMask, Bool.and_eq_true, decide_eq_true_eq] at hmask
      omega
    rw [drawColumns, or_iff_left hmiss]
  | n + 1, cv, hn => by
    rw [drawColumns, drawColumns_hits b x0 cy n _ (by omega), drawPixel_hits, or_assoc]
    refine or_congr_right (hits_of_parts (fun k hk => drawPixel_cell _ _ _ _ k hk)
      (fun k hk => drawColumns_cell b x0 cy k hk n _ (by omega))
      (fun k hk => drawColumns_cell b x0 cy k hk (n + 1) cv hn) fun k hp => ?_)
    obtain ⟨-, hc, -⟩ : _ ∧ k % 64 = x0 + (7 - n) ∧ k / 64 = cy := by simpa [pixelMask] using hp
    have hout : ¬ (k / 64 = cy ∧ x0 + 8 ≤ k % 64 + n ∧ k % 64 < x0 + 8) := by omega
    rw [columnsMask, decide_eq_false hout, Bool.false_and]

/-- The rows of a sprite collide when the picture they cover has a pixel on a set cell (R83). -/
theorem drawRows_hits (x0 : Nat) : ∀ (bs : List Byte) (cv : Canvas) (cy : Nat),
    (drawRows cv x0 cy bs).2 = true ↔ cv.2 = true ∨ Hits cv.1 (covers (fun r => bs.getD r 0) bs.length x0 cy)
  | [], cv, cy => by
    have hmiss : ¬ Hits cv.1 (covers (fun r => ([] : List Byte).getD r 0) 0 x0 cy) := by
      rintro ⟨k, -, -, hmask⟩
      simp only [covers, Bool.and_eq_true, decide_eq_true_eq] at hmask
      omega
    rw [drawRows, List.length_nil, or_iff_left hmiss]
  | b :: bs, cv, cy => by
    rw [drawRows, drawRows_hits x0 bs, drawColumns_hits b x0 cy 8 cv (Nat.le_refl 8), or_assoc]
    refine or_congr_right (hits_of_parts (fun k hk => drawColumns_cell b x0 cy k hk 8 cv (Nat.le_refl 8))
      (fun k hk => drawRows_cell x0 k hk bs _ _) (fun k hk => drawRows_cell x0 k hk (b :: bs) cv cy) fun k hp => ?_)
    simp only [columnsMask, Bool.and_eq_true, decide_eq_true_eq] at hp
    obtain ⟨⟨hrow, -⟩, -⟩ := hp
    have hout : ¬ (x0 ≤ k % 64 ∧ k % 64 < x0 + 8 ∧ cy + 1 ≤ k / 64 ∧ k / 64 < cy + 1 + bs.length) := by omega
    rw [covers, decide_eq_false hout, Bool.false_and]

/-! ### DRW -/

/-- The picture reads its rows inside the sprite only. -/
theorem covers_congr {row row' : Nat → Byte} {rows : Nat} (h : ∀ r, r < rows → row r = row' r) (x0 y0 : Nat) :
    covers row rows x0 y0 = covers row' rows x0 y0 := by
  funext k
  unfold covers
  by_cases hin : x0 ≤ k % 64 ∧ k % 64 < x0 + 8 ∧ y0 ≤ k / 64 ∧ k / 64 < y0 + rows
  · rw [h (k / 64 - y0) (by omega)]
  · rw [decide_eq_false hin, Bool.false_and, Bool.false_and]

/-- The rows read from `I` up cover what `spriteCovers` says (R83). -/
theorem covers_readBytes (s : State) (x y n : Nibble) :
    covers (fun r => (s.mem.readBytes s.dataAddr n.toNat).getD r 0) (s.mem.readBytes s.dataAddr n.toNat).length
      ((s.readV x).toNat % 64) ((s.readV y).toNat % 32) = s.spriteCovers x y n := by
  rw [Memory.length_readBytes]
  exact covers_congr (fun r hr => Memory.getD_readBytes s.mem s.dataAddr hr) _ _

theorem drawSprite_cell (s : State) (x y n : Nibble) {k : Nat} (hk : k < 2048) :
    (drawSprite s x y n).1.cell k = (s.fb.cell k ^^ s.spriteCovers x y n k) := by
  rw [drawSprite, drawRows_cell _ k hk, covers_readBytes]

theorem drawSprite_hits (s : State) (x y n : Nibble) :
    (drawSprite s x y n).2 = true ↔ Hits s.fb (s.spriteCovers x y n) := by
  rw [drawSprite, drawRows_hits, covers_readBytes, or_iff_right Bool.false_ne_true]

/-- The state a DRW leaves whose addresses pass the check. -/
def State.drawn (s : State) (x y n : Nibble) : State :=
  ({ s with fb := (drawSprite s x y n).1 }.writeFlag (flagOf (drawSprite s x y n).2)).retireWith .ok

theorem exec_drw_of_accessible {s : State} {n : Nibble} (h : s.Accessible s.dataAddr n.toNat) (x y : Nibble) :
    exec (.drw x y n) s = .next (s.drawn x y n) :=
  withAccess_of_accessible h _

theorem readV_drawn_flag (s : State) (x y n : Nibble) :
    (s.drawn x y n).readV 0xF = flagOf (drawSprite s x y n).2 := by
  rw [State.drawn, State.readV_retireWith, State.writeFlag, State.readV_writeV_self]

theorem readV_drawn_of_ne (s : State) (x y n : Nibble) {r : Nibble} (hr : r ≠ 0xF) :
    (s.drawn x y n).readV r = s.readV r := by
  rw [State.drawn, State.readV_retireWith, State.writeFlag, State.readV_writeV_ne _ _ _ _ hr]
  rfl

theorem flagOf_eq_one (c : Bool) : flagOf c = 1 ↔ c = true := by
  cases c <;> decide

/-- Outside register 15 a draw keeps what its own picture is made of. -/
theorem spriteCovers_drawn (s : State) {x y : Nibble} (hx : x ≠ 0xF) (hy : y ≠ 0xF) (n : Nibble) :
    (s.drawn x y n).spriteCovers x y n = s.spriteCovers x y n := by
  funext k
  unfold State.spriteCovers
  rw [readV_drawn_of_ne s x y n hx, readV_drawn_of_ne s x y n hy]
  rfl

end Sys2Proof.Machine

open Sys2Proof.Machine in
/-- Settles O47: every cell by the rows of the sprite, and the flag by whether one of its pixels hits a set cell. -/
theorem drawXorsClippedSprite : Obligations.DrawXorsClippedSprite := by
  unfold Obligations.DrawXorsClippedSprite
  intro s x y n h
  refine ⟨rfl, s.drawn x y n, exec_drw_of_accessible h x y, fun k hk => drawSprite_cell s x y n hk, ?_,
    fun r hr => readV_drawn_of_ne s x y n hr, (sameExcept_drawn s _ _).retireWith .ok, rfl, rfl⟩
  rw [readV_drawn_flag]
  cases hflag : (drawSprite s x y n).2 with
  | true => exact .inl ⟨rfl, (drawSprite_hits s x y n).mp hflag⟩
  | false =>
    refine .inr ⟨rfl, fun k hk hset => Bool.eq_false_iff.mpr fun hcov => ?_⟩
    have hhit := (drawSprite_hits s x y n).mpr ⟨k, hk, hset, hcov⟩
    rw [hflag] at hhit
    cases hhit

open Sys2Proof.Machine in
/-- Settles O48: the second draw covers the same cells, so it XORs them back, and hits those that were clear. -/
theorem drawTwiceRestores : Obligations.DrawTwiceRestores := by
  unfold Obligations.DrawTwiceRestores
  intro s t x y n hx hy h hdraw
  rw [exec_drw_of_accessible h] at hdraw
  cases hdraw
  have hcell : ∀ k, k < 2048 → (s.drawn x y n).fb.cell k = (s.fb.cell k ^^ s.spriteCovers x y n k) :=
    fun k hk => drawSprite_cell s x y n hk
  have hagain : (s.drawn x y n).Accessible (s.drawn x y n).dataAddr n.toNat := h
  refine ⟨_, exec_drw_of_accessible hagain x y, fun k hk => ?_, ?_⟩
  · refine (drawSprite_cell (s.drawn x y n) x y n hk).trans ?_
    rw [hcell k hk, spriteCovers_drawn s hx hy, Bool.xor_assoc, Bool.xor_self, Bool.xor_false]
  · rw [readV_drawn_flag, flagOf_eq_one, drawSprite_hits, spriteCovers_drawn s hx hy]
    refine exists_congr fun k => and_congr_right fun hk => ?_
    rw [hcell k hk]
    cases s.spriteCovers x y n k <;> simp
end
